-- ==== Sys2Proof/Word.lean ====
section
/-! DEFINITION. The two word types of PXDS and nothing else: registers and pixels are 32 bits wide
(00_scope.md R6, R7), memory is addressed in bytes (20_memory.md R50). -/

namespace Sys2Proof

/-- A memory byte or a byte of the destination stream. -/
abbrev Byte := BitVec 8

/-- A register value, a command word or a source pixel (R6, R7, R70). -/
abbrev Word := BitVec 32

end Sys2Proof
end

