-- ==== Sys2Proof/Config.lean ====
section
/-! DEFINITION. What one build of PXDS fixes and no step changes: the constants the spec gives a value
(00_scope.md R7, R9), the parameters it leaves to the platform (R8, R10, R11, R13, 20_memory.md R66) as
plain data, and the free values of the model. -/

namespace Sys2Proof

/-- Byte order of a multi-byte value in memory; `SRC_ORDER` and `DST16_ORDER` of R8. The spec gives `le`; `be` is DEDUCED
(log entry 15). -/
inductive ByteOrder where
  | le
  | be
  deriving DecidableEq, Repr, Inhabited

/-- Order of the three components of a 24-bit pixel in the stream; `RGB24_ORDER` of R8. The spec gives `rgb`; `bgr` is
DEDUCED (log entry 15). -/
inductive ComponentOrder where
  | rgb
  | bgr
  deriving DecidableEq, Repr, Inhabited

/-- How a component loses its low bits on the way to 5:6:5; `Q565` of R8. Truncation is the only rule the
spec gives; it names no rounding rule (91_not_in_source.md N10). -/
inductive Quantiser where
  | truncate
  deriving DecidableEq, Repr, Inhabited

/-- The conversion parameters of R8. -/
structure ConvParams where
  srcOrder   : ByteOrder
  dst16Order : ByteOrder
  rgb24Order : ComponentOrder
  q565       : Quantiser
  deriving DecidableEq, Repr, Inhabited

/-- The values of R8's table, which every rule and vector of the spec uses. -/
def ConvParams.spec : ConvParams :=
  { srcOrder := .le, dst16Order := .le, rgb24Order := .rgb, q565 := .truncate }

/-- The PLL search parameters of R10, all OPEN (decision D33). Frequencies are in Hz. -/
structure PllParams where
  fRef      : Nat
  vcoMin    : Nat
  vcoMax    : Nat
  divisors  : List Nat
  clockMax  : Nat
  ppmMax    : Nat
  bandEdge1 : Nat
  bandEdge2 : Nat
  bandEdge3 : Nat
  deriving DecidableEq, Repr, Inhabited

/-- A range of memory the platform lets PXDS access; a list of them is `mem_admits` (R13) as data. -/
structure Region where
  base : Nat
  size : Nat
  deriving DecidableEq, Repr, Inhabited

/-- Everything that is tied off when PXDS is built into a platform (70_reset_and_hazards.md R201): R8's and
R10's parameters, `PLL_PRESENT` (R11), `mem_admits` (R13) and `PXDS_BASE` (20_memory.md R66), which is
64 times `windowIndex`. -/
structure TieOffs where
  conv        : ConvParams
  pllPresent  : Bool
  pll         : PllParams
  admitted    : List Region
  windowIndex : Nat
  deriving DecidableEq, Repr, Inhabited

namespace Config

/-- `2^ADDR_W`, the number of bytes of the memory space (R6, 20_memory.md R50). -/
def memBytes : Nat := 2 ^ 32

/-- The swizzle constant `SWZ` on the destination byte index (R7). -/
def swz : Nat := 4

/-- Size in bytes of the register window (10_state.md R22). -/
def windowBytes : Nat := 64

/-- The prescaler set, in search order (R9, 41_pll.md R149). -/
def prescalers : List Nat := [1, 2]

/-- The largest multiplier; the multipliers are 1 to this (R9). -/
def multMax : Nat := 128

/-- `ADJ_MAX`, the bound on the line-total adjustment (R9). -/
def adjMax : Nat := 10

/-- `SCALE`, the fixed-point scale of the ppm error (R9). -/
def scale : Nat := 10 ^ 6

/-- The largest value of a register, `2^32 - 1`; an adjusted line total is at most this (41_pll.md R144). -/
def wordMax : Nat := 2 ^ 32 - 1

/-- FREE VALUE. The bytes the spec leaves "any value": what a command that ends in BUS leaves in its written
set (40_convert.md R116), what a reset leaves in an aborted command's written set (70_reset_and_hazards.md
R202) and what a host reads from a destination window while BUSY (R205). The argument is `State.draws` (log
entry 7). -/
opaque freeByte : Nat → Byte

/-- FREE VALUE. The PLL parameters of the platform; R10 names them and gives no value. -/
opaque pll : PllParams

/-- FREE VALUE. The memory the platform lets PXDS access (R13, OPEN). -/
opaque admitted : List Region

/-- FREE VALUE. Where the platform puts the register window: `PXDS_BASE / 64` (20_memory.md R66, OPEN). -/
opaque windowIndex : Nat

end Config

end Sys2Proof
end

