-- ==== Sys2Proof/Syntax.lean ====
section
/-! DEFINITION. The command set of 30_encoding.md R73, whole: one constructor per row of
spec/opcode_table.json. A command has no immediate field (R75), so no constructor has an argument. -/

namespace Sys2Proof

/-- The six PXDS commands (30_encoding.md R73). -/
inductive Instr where
  /-- No operation, the spec's handshake test (40_convert.md R110). -/
  | nop
  /-- Convert one line to 16 bits per pixel (R111). -/
  | line16
  /-- Convert one line to 24 bits per pixel (R112). -/
  | line24
  /-- Convert a frame to 16 bits per pixel (R113). -/
  | frame16
  /-- Convert a frame to 24 bits per pixel (R114). -/
  | frame24
  /-- Search for PLL parameters (41_pll.md R141). -/
  | pllsyn
  deriving DecidableEq, Repr

/-- Every command once, in the order of the opcode table. -/
def Instr.all : List Instr := [.nop, .line16, .line24, .frame16, .frame24, .pllsyn]

end Sys2Proof
end

