-- ==== Sys2Proof/WellFormed.lean ====
section
/-! DEFINITION. Which terms of the syntax and which configurations the spec admits. -/

namespace Sys2Proof

/-- A command is legal on a build with the given `PLL_PRESENT` (30_encoding.md R73): all are, but PLLSYN needs
the PLL search. -/
def Instr.wellFormed (pllPresent : Bool) : Instr → Bool
  | .pllsyn => pllPresent
  | .nop => true
  | .line16 => true
  | .line24 => true
  | .frame16 => true
  | .frame24 => true

/-- The divisor list of R10: non-empty, strictly ascending, every element in `[1, 2^32 - 1]`. -/
abbrev PllParams.DivisorsWf (p : PllParams) : Prop :=
  p.divisors ≠ [] ∧ p.divisors.Pairwise (· < ·) ∧ ∀ d ∈ p.divisors, 1 ≤ d ∧ d < 2 ^ 32

/-- The constraints 00_scope.md R10 places on the PLL parameters. They are preconditions of every rule of
41_pll.md (R140). -/
abbrev PllParams.Wf (p : PllParams) : Prop :=
  1 ≤ p.fRef ∧ p.vcoMin ≤ p.vcoMax ∧ p.vcoMax < 2 ^ 32 ∧ p.DivisorsWf ∧ p.clockMax < 2 ^ 32 ∧
    p.ppmMax < 2 ^ 32 ∧ p.bandEdge1 ≤ p.bandEdge2 ∧ p.bandEdge2 ≤ p.bandEdge3

/-- The smallest parameters R10 admits. They only say that `PllParams.Wf` is inhabited. -/
def PllParams.least : PllParams :=
  { fRef := 1, vcoMin := 0, vcoMax := 0, divisors := [1], clockMax := 0, ppmMax := 0,
    bandEdge1 := 0, bandEdge2 := 0, bandEdge3 := 0 }

/-- The PLL parameters of the build: the free value `Config.pll` where R10 admits it. A configuration R10 does
not admit is rejected when PXDS is built (93_implementation_defined.md U8), so it is never this. Every
configuration R10 admits is a possible value. -/
def Config.pllOfBuild : PllParams := if Config.pll.Wf then Config.pll else PllParams.least

end Sys2Proof
end

