-- ==== Sys2Proof/Decode.lean ====
section
/-! DEFINITION. The decoder of 30_encoding.md R76, total on all 32-bit words, and after it the encoder of
R73's table. -/

namespace Sys2Proof

/-- Why a word is no legal command (30_encoding.md R72, R74). -/
inductive DecodeError where
  /-- `CMD[31:8]` is not zero (R72). -/
  | reservedBits
  /-- `CMD[7:0]` is no operation code of R73. -/
  | unknownOp
  /-- PLLSYN where `PLL_PRESENT` is false (R74). -/
  | pllAbsent
  deriving DecidableEq, Repr

/-- The OP field, `CMD[7:0]` (30_encoding.md R70, R71). -/
def opField (w : Word) : Byte := w.extractLsb' 0 8

/-- The RSVD field, `CMD[31:8]` (30_encoding.md R70). -/
def rsvdField (w : Word) : BitVec 24 := w.extractLsb' 8 24

/-- 30_encoding.md R76, with the reason where the word is illegal. -/
def decode (pllPresent : Bool) (w : Word) : Except DecodeError Instr :=
  if rsvdField w ≠ 0 then .error .reservedBits
  else if opField w = 0x00 then .ok .nop
  else if opField w = 0x12 then .ok .line16
  else if opField w = 0x13 then .ok .line24
  else if opField w = 0x22 then .ok .frame16
  else if opField w = 0x23 then .ok .frame24
  else if opField w = 0x30 then if pllPresent then .ok .pllsyn else .error .pllAbsent
  else .error .unknownOp

/-- CLASS of a command, `CMD[7:4]` (30_encoding.md R70, R73). -/
def Instr.cmdClass : Instr → BitVec 4
  | .nop => 0
  | .line16 => 1
  | .line24 => 1
  | .frame16 => 2
  | .frame24 => 2
  | .pllsyn => 3

/-- BPP of a command, `CMD[3:0]`: its destination bytes per pixel (30_encoding.md R70, R73). -/
def Instr.cmdBpp : Instr → BitVec 4
  | .nop => 0
  | .line16 => 2
  | .line24 => 3
  | .frame16 => 2
  | .frame24 => 3
  | .pllsyn => 0

/-- The command word of a command: `RSVD ++ CLASS ++ BPP` (30_encoding.md R70, R73). -/
def encode (i : Instr) : Word := (0 : BitVec 24) ++ i.cmdClass ++ i.cmdBpp

/-- The decoder on a row of the opcode table: the command word is one 32-bit word whose bits the table numbers
as R14 does, and the table is that of a build with the PLL search (log entry 20). -/
def decodeTableWord (nbits w : Nat) : Option Instr :=
  match decode true (BitVec.ofNat 32 (w % 2 ^ nbits)) with
  | .ok i => some i
  | .error _ => none

end Sys2Proof
end

