-- ==== Sys2Proof/Machine/State.lean ====
section
/-! DEFINITION. The state of PXDS and of what stands around it, as plain data: the register window and the
latched command (10_state.md R20), the shared memory (20_memory.md R50), the host's pending accesses and what
it has read (00_scope.md R17), the schedule of the two agents, and the tie-offs of the build. -/

namespace Sys2Proof.Machine

/-- The shared memory: address and byte pairs, in the canonical form of `Memory.Wf` (Ops.lean). -/
abbrev Memory := List Host.Cell

/-- The error codes of 60_exceptions.md R180. Codes 0x0A to 0xFF are never recorded
(93_implementation_defined.md U9), so the type has none (log entry 14). -/
inductive ErrCode where
  | none
  | illegalCmd
  | badDim
  | align
  | range
  | overlap
  | bus
  | badClock
  | clockHigh
  | unsat
  deriving DecidableEq, Repr

/-- The fields of STATUS (10_state.md R24). The reserved bits read as 0, so they hold nothing. -/
structure Status where
  busy    : Bool
  done    : Bool
  err     : Bool
  ovr     : Bool
  errCode : ErrCode
  deriving DecidableEq, Repr

/-- STATUS after reset (10_state.md R36, 70_reset_and_hazards.md R200). -/
def Status.zero : Status :=
  { busy := false, done := false, err := false, ovr := false, errCode := .none }

/-- The registers of the window other than STATUS (10_state.md R22, R23, R26 to R31). The reserved slot 0x3C
reads as 0 (R32), so it holds nothing. -/
structure Regs where
  cmd       : Word
  srcAddr   : Word
  dstAddr   : Word
  width     : Word
  height    : Word
  srcPitch  : Word
  targetClk : Word
  baseTotal : Word
  pllCfg    : Word
  pllDiv    : Word
  pllClk    : Word
  pllAdj    : Word
  pllTotal  : Word
  pllPpm    : Word
  deriving DecidableEq, Repr

/-- Every register at its reset value, `0x00000000` (10_state.md R22, R36). -/
def Regs.zero : Regs :=
  { cmd := 0, srcAddr := 0, dstAddr := 0, width := 0, height := 0, srcPitch := 0, targetClk := 0,
    baseTotal := 0, pllCfg := 0, pllDiv := 0, pllClk := 0, pllAdj := 0, pllTotal := 0, pllPpm := 0 }

/-- The latched command record `L` (10_state.md R33). -/
structure Latched where
  cmd       : Word
  srcAddr   : Word
  dstAddr   : Word
  width     : Word
  height    : Word
  srcPitch  : Word
  targetClk : Word
  baseTotal : Word
  deriving DecidableEq, Repr

/-- `L` after reset, all fields zero (10_state.md R35, R36). -/
def Latched.zero : Latched :=
  { cmd := 0, srcAddr := 0, dstAddr := 0, width := 0, height := 0, srcPitch := 0, targetClk := 0,
    baseTotal := 0 }

/-- The sixteen slots of the register window (10_state.md R22). -/
inductive Reg where
  | cmd
  | status
  | srcAddr
  | dstAddr
  | width
  | height
  | srcPitch
  | targetClk
  | baseTotal
  | pllCfg
  | pllDiv
  | pllClk
  | pllAdj
  | pllTotal
  | pllPpm
  | reserved
  deriving DecidableEq, Repr

/-- The two agents (00_scope.md R17). -/
inductive Agent where
  | host
  | engine
  deriving DecidableEq, Repr

/-- One thing the world outside the engine does next (00_scope.md R17; 30_encoding.md R77, R78;
70_reset_and_hazards.md R200). A bus address is an address of the host's space; a memory address is a byte
address of the memory space. -/
inductive HostStep where
  /-- A read access of `bits` bits at a bus address (`rd` of R77 when it is 32 bits at a register). -/
  | regRead (addr bits : Nat)
  /-- A write access of `bits` bits at a bus address (`wr` of R77 when it is 32 bits at a register). -/
  | regWrite (addr bits : Nat) (v : Word)
  /-- The pseudo-instruction `wait` of R78: `rd STATUS` until BUSY reads 0. -/
  | wait
  /-- The host reads one byte of memory. -/
  | memRead (a : Nat)
  /-- The host writes one byte of memory. -/
  | memWrite (a : Nat) (v : Byte)
  /-- The reset input is asserted. -/
  | reset
  deriving DecidableEq, Repr

/-- What one read by the host returned. -/
inductive Observation where
  /-- The register slot at this window offset read as this word. -/
  | reg (off : Nat) (v : Word)
  /-- The memory byte at this address read as this. -/
  | byte (a : Nat) (v : Byte)
  deriving DecidableEq, Repr

/-- The state of the machine. `regs`, `status` and `latched` are PXDS (10_state.md R20); `mem` is the platform's
memory (20_memory.md R50), in the canonical form of `Memory.Wf`; `tie` is the build. The last four are the
model's own: what the host will do, which agent moves when both may, what the host has read, newest first, and
how many free values have been drawn. -/
structure State where
  regs    : Regs
  status  : Status
  latched : Latched
  mem     : Memory
  tie     : TieOffs
  host    : List HostStep
  sched   : List Agent
  seen    : List Observation
  draws   : Nat
  deriving DecidableEq, Repr

/-- Reasons the machine stops with a fault. -/
inductive Fault where
  /-- Raised by a host memory access (`State.hostStep`) at an address of `2^32` or more, which the memory space
  does not have (20_memory.md R50). Safe: the machine stops. -/
  | noSuchAddress
  deriving DecidableEq, Repr

/-- Reasons the model gives a step no meaning. -/
inductive Refusal where
  /-- Raised by `exec` for a command that has no meaning yet. Safe: the machine stops. -/
  | notModelled (mnemonic : String)
  /-- Raised by a host register access that is not 32 bits wide or not 4-byte aligned (20_memory.md R58,
  93_implementation_defined.md U6: "refuse"). Safe: the machine stops. -/
  | badRegisterAccess
  /-- Raised by a host register access outside the window: it reaches the platform, to which no rule of the spec
  applies (93_implementation_defined.md U12). Safe: the machine stops. -/
  | outsideWindow
  /-- Raised by a host write to the source span or the window of the command in flight
  (70_reset_and_hazards.md R205, 93_implementation_defined.md U4: "refuse"). Safe: the machine stops. -/
  | ownedBuffer
  /-- Raised by PLLSYN on PLL parameters that break 00_scope.md R10 (93_implementation_defined.md U8: "refuse").
  No build has such parameters, so no run reaches it. Safe: the machine stops. -/
  | badConfiguration
  deriving DecidableEq, Repr

/-- What a step or a meaning answers. -/
abbrev Result := Host.Outcome State Fault Refusal

/-- The tie-offs of the build `State.reset` describes: R8's values, the PLL search present, and the free values
of Config where the spec gives none. DESIGN CHOICE (log entries 3, 4, 5). -/
def tieAtReset : TieOffs :=
  { conv := .spec, pllPresent := true, pll := Config.pllOfBuild, admitted := Config.admitted,
    windowIndex := Config.windowIndex }

/-- A build right after reset (10_state.md R36, 70_reset_and_hazards.md R200, R203): every register and `L` zero,
no command in flight, nothing listed in memory, and nothing for the host to do. -/
def State.resetOf (tie : TieOffs) : State :=
  { regs := .zero, status := .zero, latched := .zero, mem := [], tie := tie, host := [], sched := [],
    seen := [], draws := 0 }

/-- The machine right after reset. -/
def State.reset : State := State.resetOf tieAtReset

end Sys2Proof.Machine
end

