-- ==== Sys2Proof/Machine/Flags.lean ====
section
/-! DEFINITION. Everything that reads or changes the fields of STATUS (10_state.md R24, R25, R33;
60_exceptions.md R182, R188). -/

namespace Sys2Proof.Machine

/-- The ERRCODE byte of an error (60_exceptions.md R180). -/
def ErrCode.byte : ErrCode → Byte
  | .none => 0x00
  | .illegalCmd => 0x01
  | .badDim => 0x02
  | .align => 0x03
  | .range => 0x04
  | .overlap => 0x05
  | .bus => 0x06
  | .badClock => 0x07
  | .clockHigh => 0x08
  | .unsat => 0x09

/-- STATUS as a host reads it (10_state.md R24): `[15:8]` ERRCODE, `[3]` OVR, `[2]` ERR, `[1]` DONE, `[0]` BUSY,
the rest 0. -/
def Status.word (t : Status) : Word :=
  (0 : BitVec 16) ++ t.errCode.byte ++ (0 : BitVec 4) ++ BitVec.ofBool t.ovr ++ BitVec.ofBool t.err ++
    BitVec.ofBool t.done ++ BitVec.ofBool t.busy

/-- A host write of `w` to STATUS: a 1 in bit 1, 2 or 3 clears DONE, ERR with ERRCODE, or OVR
(10_state.md R25). -/
def Status.clear (t : Status) (w : Word) : Status :=
  { busy := t.busy
    done := if w.getLsbD 1 then false else t.done
    err := if w.getLsbD 2 then false else t.err
    ovr := if w.getLsbD 3 then false else t.ovr
    errCode := if w.getLsbD 2 then .none else t.errCode }

/-- STATUS when a command is issued; OVR is unchanged (10_state.md R33). -/
def Status.issued (t : Status) : Status :=
  { t with busy := true, done := false, err := false, errCode := .none }

/-- STATUS when CMD is written while BUSY (60_exceptions.md R188). -/
def Status.overrun (t : Status) : Status := { t with ovr := true }

/-- STATUS after `complete()` (60_exceptions.md R182). -/
def Status.completed (t : Status) : Status := { t with busy := false, done := true }

/-- STATUS after `raise Error(code)` (60_exceptions.md R182). -/
def Status.failed (t : Status) (code : ErrCode) : Status :=
  { t with errCode := code, err := true, busy := false, done := true }

end Sys2Proof.Machine
end

