-- ==== Sys2Proof/Machine/Ops.lean ====
section
/-! DEFINITION. The shared operations: memory (20_memory.md R51 to R53), the register window (10_state.md R22 to
R33), ending a command with and without an error (60_exceptions.md R182) and the bytes the spec leaves open. -/

namespace Sys2Proof.Machine

/-! ### Memory -/

/-- What an address that is not listed reads as. The spec gives no contents of memory at power-on; DESIGN CHOICE
(log entry 1). -/
def Memory.unlisted : Byte := 0

/-- The canonical form: addresses strictly rising and inside the memory space, and no entry equal to what an
unlisted address reads as. -/
abbrev Memory.Wf (m : Memory) : Prop :=
  m.Pairwise (fun c d => c.1 < d.1) ∧ ∀ c ∈ m, c.1 < Config.memBytes ∧ c.2 ≠ Memory.unlisted

/-- The byte at an address. -/
def Memory.read : Memory → Nat → Byte
  | [], _ => Memory.unlisted
  | (k, v) :: m, a => if k = a then v else Memory.read m a

/-- `MemWrite(a, 1, v)` (20_memory.md R53), keeping the canonical form. -/
def Memory.write : Memory → Nat → Byte → Memory
  | [], a, v => if v = Memory.unlisted then [] else [(a, v)]
  | (k, u) :: m, a, v =>
    if a < k then if v = Memory.unlisted then (k, u) :: m else (a, v) :: (k, u) :: m
    else if a = k then if v = Memory.unlisted then m else (a, v) :: m
    else (k, u) :: Memory.write m a v

/-- `MemRead(a, 4)` (20_memory.md R52): in order `le` the byte at the lowest address is bits `[7:0]`. -/
def Memory.readWord (order : ByteOrder) (m : Memory) (a : Nat) : Word :=
  match order with
  | .le => m.read (a + 3) ++ m.read (a + 2) ++ m.read (a + 1) ++ m.read a
  | .be => m.read a ++ m.read (a + 1) ++ m.read (a + 2) ++ m.read (a + 3)

/-- Write the free bytes numbered `n`, `n + 1`, … to the listed addresses in order. -/
def Memory.writeFree : List Nat → Nat → Memory → Memory
  | [], _, m => m
  | a :: as, n, m => Memory.writeFree as (n + 1) (m.write a (Config.freeByte n))

/-- `mem_admits(a)` (00_scope.md R13, 20_memory.md R51). -/
def admits (tie : TieOffs) (a : Nat) : Bool :=
  tie.admitted.any fun r => decide (r.base ≤ a ∧ a < r.base + r.size)

/-- Each listed byte takes a free value and the draw counter moves past them. -/
def State.freeBytes (as : List Nat) (s : State) : State :=
  { s with mem := Memory.writeFree as s.draws s.mem, draws := s.draws + as.length }

/-! ### Ending a command -/

/-- `complete()` (60_exceptions.md R182). -/
def State.complete (s : State) : State := { s with status := s.status.completed }

/-- `raise Error(code)` (60_exceptions.md R182): the one way a command ends in an error. PXDS transfers no control
and saves nothing but the code (R183). -/
def State.raiseError (code : ErrCode) (s : State) : State := { s with status := s.status.failed code }

/-- `BusError()` (40_convert.md R116): every byte of the written set takes any value, and the command ends with
code BUS. -/
def State.busError (written : List Nat) (s : State) : State := (s.freeBytes written).raiseError .bus

/-! ### The register window -/

/-- Offset of a slot in the window (10_state.md R22). -/
def Reg.offset : Reg → Nat
  | .cmd => 0x00
  | .status => 0x04
  | .srcAddr => 0x08
  | .dstAddr => 0x0C
  | .width => 0x10
  | .height => 0x14
  | .srcPitch => 0x18
  | .targetClk => 0x1C
  | .baseTotal => 0x20
  | .pllCfg => 0x24
  | .pllDiv => 0x28
  | .pllClk => 0x2C
  | .pllAdj => 0x30
  | .pllTotal => 0x34
  | .pllPpm => 0x38
  | .reserved => 0x3C

/-- The slot whose offset is 4 times the given number, for 0 to 15 (10_state.md R22). -/
def Reg.ofSlot : Nat → Reg
  | 0 => .cmd
  | 1 => .status
  | 2 => .srcAddr
  | 3 => .dstAddr
  | 4 => .width
  | 5 => .height
  | 6 => .srcPitch
  | 7 => .targetClk
  | 8 => .baseTotal
  | 9 => .pllCfg
  | 10 => .pllDiv
  | 11 => .pllClk
  | 12 => .pllAdj
  | 13 => .pllTotal
  | 14 => .pllPpm
  | _ => .reserved

/-- `PXDS_BASE` (20_memory.md R66). -/
def windowBase (tie : TieOffs) : Nat := 64 * tie.windowIndex

/-- The slot a host access of `bits` bits at a bus address reaches. Outside the window it reaches the platform
(93_implementation_defined.md U12); another width or alignment has no defined effect (20_memory.md R58). Both are
refused (log entry 12). -/
def regAccess (tie : TieOffs) (addr bits : Nat) : Except Refusal Reg :=
  if addr < windowBase tie ∨ windowBase tie + Config.windowBytes ≤ addr then .error .outsideWindow
  else if bits ≠ 32 ∨ (addr - windowBase tie) % 4 ≠ 0 then .error .badRegisterAccess
  else .ok (Reg.ofSlot ((addr - windowBase tie) / 4))

/-- A register of the PLL search reads 0 where the search is absent (10_state.md R32, 00_scope.md R11). -/
def State.ifPll (s : State) (w : Word) : Word := if s.tie.pllPresent then w else 0

/-- Read of a register slot (10_state.md R22); it has no side effect (20_memory.md R60). -/
def State.readReg (s : State) : Reg → Word
  | .cmd => s.regs.cmd
  | .status => s.status.word
  | .srcAddr => s.regs.srcAddr
  | .dstAddr => s.regs.dstAddr
  | .width => s.regs.width
  | .height => s.regs.height
  | .srcPitch => s.regs.srcPitch
  | .targetClk => s.ifPll s.regs.targetClk
  | .baseTotal => s.ifPll s.regs.baseTotal
  | .pllCfg => s.ifPll s.regs.pllCfg
  | .pllDiv => s.ifPll s.regs.pllDiv
  | .pllClk => s.ifPll s.regs.pllClk
  | .pllAdj => s.ifPll s.regs.pllAdj
  | .pllTotal => s.ifPll s.regs.pllTotal
  | .pllPpm => s.ifPll s.regs.pllPpm
  | .reserved => 0

/-- The record latched when `w` is issued: `w` and the parameter registers as they read now (10_state.md R33). -/
def State.latch (s : State) (w : Word) : Latched :=
  { cmd := w
    srcAddr := s.readReg .srcAddr
    dstAddr := s.readReg .dstAddr
    width := s.readReg .width
    height := s.readReg .height
    srcPitch := s.readReg .srcPitch
    targetClk := s.readReg .targetClk
    baseTotal := s.readReg .baseTotal }

/-- Issue of the command word `w` (10_state.md R33). -/
def State.issue (s : State) (w : Word) : State :=
  { s with regs := { s.regs with cmd := w }, latched := s.latch w, status := s.status.issued }

/-- A host write of `w` to CMD: issue when idle, overrun when BUSY (10_state.md R23, 60_exceptions.md R188). -/
def State.writeCmd (s : State) (w : Word) : State :=
  if s.status.busy then { s with status := s.status.overrun } else s.issue w

/-- A host write of `w` to a register slot (10_state.md R22 to R32). Read-only and reserved slots ignore it. -/
def State.writeReg (s : State) (r : Reg) (w : Word) : State :=
  match r with
  | .cmd => s.writeCmd w
  | .status => { s with status := s.status.clear w }
  | .srcAddr => { s with regs := { s.regs with srcAddr := w } }
  | .dstAddr => { s with regs := { s.regs with dstAddr := w } }
  | .width => { s with regs := { s.regs with width := w } }
  | .height => { s with regs := { s.regs with height := w } }
  | .srcPitch => { s with regs := { s.regs with srcPitch := w } }
  | .targetClk => if s.tie.pllPresent then { s with regs := { s.regs with targetClk := w } } else s
  | .baseTotal => if s.tie.pllPresent then { s with regs := { s.regs with baseTotal := w } } else s
  | .pllCfg => s
  | .pllDiv => s
  | .pllClk => s
  | .pllAdj => s
  | .pllTotal => s
  | .pllPpm => s
  | .reserved => s

/-- The host has read something. -/
def State.observe (o : Observation) (s : State) : State := { s with seen := o :: s.seen }

end Sys2Proof.Machine
end

