-- ==== Sys2Proof/Machine/Operands.lean ====
section
/-! DEFINITION. Operand assembly from the latched record (30_encoding.md R75) and the regions of a conversion: its
source bytes, stream, window and written set, and the checks on them (40_convert.md R102, R105, R106, R108,
R109). All on mathematical integers. -/

namespace Sys2Proof.Machine

/-- The operands of a conversion as integers. A line is a frame of one line. -/
structure Conversion where
  src    : Nat
  dst    : Nat
  width  : Nat
  height : Nat
  pitch  : Nat
  bpp    : Nat
  deriving DecidableEq, Repr

/-- Operands of LINE16 and LINE24: SRC_ADDR, DST_ADDR and WIDTH; HEIGHT and SRC_PITCH are ignored
(30_encoding.md R75). -/
def lineOperands (bpp : Nat) (l : Latched) : Conversion :=
  { src := l.srcAddr.toNat, dst := l.dstAddr.toNat, width := l.width.toNat, height := 1, pitch := 0, bpp := bpp }

/-- Operands of FRAME16 and FRAME24 (30_encoding.md R75). -/
def frameOperands (bpp : Nat) (l : Latched) : Conversion :=
  { src := l.srcAddr.toNat, dst := l.dstAddr.toNat, width := l.width.toNat, height := l.height.toNat,
    pitch := l.srcPitch.toNat, bpp := bpp }

/-- `ceil8(x)` (00_scope.md R14). -/
def ceil8 (x : Nat) : Nat := 8 * ((x + 7) / 8)

/-- The destination offset of stream byte `k`: "byte index XOR 4" (20_memory.md R54, 40_convert.md R105). -/
def swizzle (k : Nat) : Nat := k ^^^ Config.swz

/-- Addresses of the pixels of line `y` (40_convert.md R102, R109). -/
def Conversion.lineAddrs (c : Conversion) (y : Nat) : List Nat :=
  (List.range c.width).map fun x => c.src + y * c.pitch + 4 * x

/-- Addresses of all pixels in stream order, row by row (40_convert.md R109). -/
def Conversion.pixelAddrs (c : Conversion) : List Nat := (List.range c.height).flatMap c.lineAddrs

/-- `SrcBytes` (40_convert.md R108, R109). -/
def Conversion.srcBytes (c : Conversion) : List Nat :=
  c.pixelAddrs.flatMap fun a => [a, a + 1, a + 2, a + 3]

/-- `Ld`, the number of stream bytes (40_convert.md R108, R109). -/
def Conversion.streamLen (c : Conversion) : Nat := c.bpp * c.width * c.height

/-- `Wd`, the size of the window (40_convert.md R106, R108). -/
def Conversion.windowLen (c : Conversion) : Nat := ceil8 c.streamLen

/-- The written set, in stream order (40_convert.md R106). -/
def Conversion.writtenSet (c : Conversion) : List Nat :=
  (List.range c.streamLen).map fun k => c.dst + swizzle k

/-- Whether an address is in the destination window (40_convert.md R106). -/
def Conversion.inWindow (c : Conversion) (a : Nat) : Bool := decide (c.dst ≤ a ∧ a < c.dst + c.windowLen)

/-- `Ss`, from the first source byte to past the last (40_convert.md R108, R109). -/
def Conversion.srcSpan (c : Conversion) : Nat := (c.height - 1) * c.pitch + 4 * c.width

/-- Whether an address is in the source span, row padding included (40_convert.md R108, R109). -/
def Conversion.inSourceSpan (c : Conversion) (a : Nat) : Bool := decide (c.src ≤ a ∧ a < c.src + c.srcSpan)

/-- `overlaps([a, b), [c, e))` (40_convert.md R108): false when either interval is empty. -/
def overlaps (a b c e : Nat) : Bool := decide (a < b ∧ c < e ∧ a < e ∧ c < b)

/-- RANGE and OVERLAP, in that order (40_convert.md R108, R109; 60_exceptions.md R181). -/
def Conversion.checkRegions (c : Conversion) : Option ErrCode :=
  if c.src + c.srcSpan > Config.memBytes ∨ c.dst + c.windowLen > Config.memBytes then some .range
  else if overlaps c.src (c.src + c.srcSpan) c.dst (c.dst + c.windowLen) then some .overlap
  else none

/-- `check_line` without its BUS clause (40_convert.md R108). -/
def Conversion.checkLine (c : Conversion) : Option ErrCode :=
  if c.src % 4 ≠ 0 ∨ c.dst % 8 ≠ 0 then some .align else c.checkRegions

/-- `check_frame` without its BUS clause (40_convert.md R109). -/
def Conversion.checkFrame (c : Conversion) : Option ErrCode :=
  if c.width = 0 ∨ c.height = 0 ∨ c.pitch < 4 * c.width then some .badDim
  else if c.src % 4 ≠ 0 ∨ c.pitch % 4 ≠ 0 ∨ c.dst % 8 ≠ 0 then some .align
  else c.checkRegions

/-- The BUS clause of both checks: every source byte and every byte to be written is admitted
(40_convert.md R108, R109). -/
def Conversion.admitted (tie : TieOffs) (c : Conversion) : Bool :=
  c.srcBytes.all (admits tie) && c.writtenSet.all (admits tie)

/-- The conversion a command performs, if it is one (30_encoding.md R75). -/
def conversionOf (i : Instr) (l : Latched) : Option Conversion :=
  match i with
  | .nop => none
  | .line16 => some (lineOperands 2 l)
  | .line24 => some (lineOperands 3 l)
  | .frame16 => some (frameOperands 2 l)
  | .frame24 => some (frameOperands 3 l)
  | .pllsyn => none

/-- The conversion in flight, if one is (10_state.md R34). -/
def State.inFlight (s : State) : Option Conversion :=
  if s.status.busy then
    match decode s.tie.pllPresent s.latched.cmd with
    | .ok i => conversionOf i s.latched
    | .error _ => none
  else none

end Sys2Proof.Machine
end

