-- ==== Sys2Proof/Machine/Convert.lean ====
section
/-! DEFINITION. The conversion family (40_convert.md): NOP, LINE16, LINE24, FRAME16, FRAME24. -/

namespace Sys2Proof.Machine

/-- The R, G and B components of a source pixel; X is dropped (40_convert.md R101). -/
def pixelR (p : Word) : Byte := p.extractLsb' 16 8
def pixelG (p : Word) : Byte := p.extractLsb' 8 8
def pixelB (p : Word) : Byte := p.extractLsb' 0 8

/-- `rgb565(p)`, the top 5, 6 and 5 bits of R, G and B (40_convert.md R103); `Q565` is the rule that drops the
others. -/
def rgb565 (q : Quantiser) (p : Word) : BitVec 16 :=
  match q with
  | .truncate => (pixelR p).extractLsb' 3 5 ++ (pixelG p).extractLsb' 2 6 ++ (pixelB p).extractLsb' 3 5

/-- The two stream bytes of a 16-bit pixel (40_convert.md R103). -/
def stream16 (c : ConvParams) (p : Word) : List Byte :=
  match c.dst16Order with
  | .le => [(rgb565 c.q565 p).extractLsb' 0 8, (rgb565 c.q565 p).extractLsb' 8 8]
  | .be => [(rgb565 c.q565 p).extractLsb' 8 8, (rgb565 c.q565 p).extractLsb' 0 8]

/-- The three stream bytes of a 24-bit pixel (40_convert.md R104). -/
def stream24 (c : ConvParams) (p : Word) : List Byte :=
  match c.rgb24Order with
  | .rgb => [pixelR p, pixelG p, pixelB p]
  | .bgr => [pixelB p, pixelG p, pixelR p]

/-- The stream of a conversion: the bytes of each pixel in turn, read from memory as it stands before the engine
step (40_convert.md R103, R104, R109; 20_memory.md R64; log entry 17). -/
def Conversion.stream (c : Conversion) (order : ByteOrder) (bytesOf : Word → List Byte) (m : Memory) : List Byte :=
  c.pixelAddrs.flatMap fun a => bytesOf (m.readWord order a)

/-- Swizzled placement of stream bytes `k`, `k + 1`, … at base `d` (40_convert.md R105). -/
def Memory.place (d : Nat) : Nat → List Byte → Memory → Memory
  | _, [], m => m
  | k, b :: bs, m => Memory.place d (k + 1) bs (m.write (d + swizzle k) b)

/-- The whole stream of a conversion, placed at its destination. -/
def State.storeStream (bytesOf : Word → List Byte) (c : Conversion) (s : State) : State :=
  { s with mem := Memory.place c.dst 0 (c.stream s.tie.conv.srcOrder bytesOf s.mem) s.mem }

/-- A conversion after its checks (40_convert.md R108, R109): the error the checks found, BUS, or the conversion
itself and `complete()`. -/
def State.convert (bytesOf : Word → List Byte) (check : Option ErrCode) (c : Conversion) (s : State) : State :=
  match check with
  | some code => s.raiseError code
  | none => if c.admitted s.tie then (s.storeStream bytesOf c).complete else s.busError c.writtenSet

/-- NOP (40_convert.md R110). -/
def execNop (s : State) : Result := .next s.complete

/-- LINE16 (40_convert.md R111). -/
def execLine16 (s : State) : Result :=
  .next (s.convert (stream16 s.tie.conv) (lineOperands 2 s.latched).checkLine (lineOperands 2 s.latched))

/-- LINE24 (40_convert.md R112). -/
def execLine24 (s : State) : Result :=
  .next (s.convert (stream24 s.tie.conv) (lineOperands 3 s.latched).checkLine (lineOperands 3 s.latched))

/-- FRAME16 (40_convert.md R113). -/
def execFrame16 (s : State) : Result :=
  .next (s.convert (stream16 s.tie.conv) (frameOperands 2 s.latched).checkFrame (frameOperands 2 s.latched))

/-- FRAME24 (40_convert.md R114). -/
def execFrame24 (s : State) : Result :=
  .next (s.convert (stream24 s.tie.conv) (frameOperands 3 s.latched).checkFrame (frameOperands 3 s.latched))

end Sys2Proof.Machine
end

