-- ==== Sys2Proof/Machine/Pll.lean ====
section
/-! DEFINITION. The PLL parameter search (41_pll.md). Every value is a mathematical integer (R155). The search takes
the error function as an argument (93_implementation_defined.md P6); the command gives it `ppm`. -/

namespace Sys2Proof.Machine

/-- `ADJ_SEQ`: 0, -1, +1, …, -10, +10 (41_pll.md R143). -/
def adjSeq : List Int :=
  0 :: (List.range Config.adjMax).flatMap fun k => [-(k + 1 : Int), (k + 1 : Int)]

/-- `adjusted_clock(t, T, Ta)` (41_pll.md R145). -/
def adjustedClock (t total ta : Nat) : Nat := (t * ta) / total

/-- `vco(p, m)` (41_pll.md R146). -/
def vco (pll : PllParams) (p m : Nat) : Nat := (pll.fRef * m) / p

/-- `ppm(v, dv, ta)` (41_pll.md R148). The absolute value is taken on integers. -/
def ppm (v dv ta : Nat) : Nat := (((v * Config.scale / (dv * ta) : Nat) : Int) - (Config.scale : Int)).natAbs

/-- `band(v)` (41_pll.md R151). -/
def band (pll : PllParams) (v : Nat) : Nat :=
  (if v ≥ pll.bandEdge1 then 1 else 0) + (if v ≥ pll.bandEdge2 then 1 else 0) +
    (if v ≥ pll.bandEdge3 then 1 else 0)

/-- A prescaler, multiplier and divisor with the VCO frequency and the ppm error they give (41_pll.md R149). -/
structure Triple where
  p   : Nat
  m   : Nat
  dv  : Nat
  vco : Nat
  err : Nat
  deriving DecidableEq, Repr

/-- The triples of one prescaler and multiplier with the error `errOf` gives them (log entry 16), divisors ascending; none
where the VCO frequency is out of range (41_pll.md R147, R149). -/
def pairTriples (errOf : Nat → Nat → Nat → Nat) (pll : PllParams) (target p m : Nat) : List Triple :=
  if vco pll p m < pll.vcoMin ∨ vco pll p m > pll.vcoMax then []
  else pll.divisors.map fun dv =>
    { p := p, m := m, dv := dv, vco := vco pll p m, err := errOf (vco pll p m) dv target }

/-- Every candidate in the order the search visits it: prescaler outer, then multiplier, then divisor
(41_pll.md R149). -/
def candidates (errOf : Nat → Nat → Nat → Nat) (pll : PllParams) (target : Nat) : List Triple :=
  Config.prescalers.flatMap fun p => (List.range' 1 Config.multMax).flatMap fun m =>
    pairTriples errOf pll target p m

/-- The best triple of a list, given the best so far: a triple replaces it only when its error is strictly smaller,
so of equal errors the first visited stays (41_pll.md R149). -/
def bestOf : Option Triple → List Triple → Option Triple
  | best, [] => best
  | none, x :: xs => bestOf (some x) xs
  | some b, x :: xs => if x.err < b.err then bestOf (some x) xs else bestOf (some b) xs

/-- `search(ta)` (41_pll.md R149). -/
def search (errOf : Nat → Nat → Nat → Nat) (pll : PllParams) (target : Nat) : Option Triple :=
  bestOf none (candidates errOf pll target)

/-- An accepted configuration: its triple, the adjustment and the adjusted total (41_pll.md R150, R152). -/
structure Accepted where
  best  : Triple
  adj   : Int
  total : Nat
  deriving DecidableEq, Repr

/-- One adjustment: skipped where the adjusted total or clock is out of bounds (41_pll.md R144), else the best
triple if its error is within the acceptance threshold (R150). -/
def tryAdjustment (errOf : Nat → Nat → Nat → Nat) (pll : PllParams) (t total : Nat) (a : Int) : Option Accepted :=
  if (total : Int) + a < 1 ∨ (total : Int) + a > (Config.wordMax : Int) then none
  else if adjustedClock t total ((total : Int) + a).toNat = 0 then none
  else
    match search errOf pll (adjustedClock t total ((total : Int) + a).toNat) with
    | none => none
    | some b => if b.err ≤ pll.ppmMax then some ⟨b, a, ((total : Int) + a).toNat⟩ else none

/-- The first accepted adjustment of `ADJ_SEQ` (41_pll.md R141, R154). -/
def synthesize (errOf : Nat → Nat → Nat → Nat) (pll : PllParams) (t total : Nat) : Option Accepted :=
  adjSeq.findSome? (tryAdjustment errOf pll t total)

/-- PLL_CFG of a result: `band[1:0] ++ 0b00 ++ p[1:0] ++ m[7:0]`, zero-extended (41_pll.md R152,
10_state.md R29). -/
def cfgWord (bnd p m : Nat) : Word :=
  (0 : BitVec 18) ++ BitVec.ofNat 2 bnd ++ (0 : BitVec 2) ++ BitVec.ofNat 2 p ++ BitVec.ofNat 8 m

/-- `write_result(best, a, Ta)`: the six result registers (41_pll.md R152). -/
def State.writeResult (r : Accepted) (s : State) : State :=
  { s with
    regs :=
      { s.regs with
        pllCfg := cfgWord (band s.tie.pll r.best.vco) r.best.p r.best.m
        pllDiv := BitVec.ofNat 32 r.best.dv
        pllClk := BitVec.ofNat 32 (r.best.vco / r.best.dv)
        pllAdj := BitVec.ofInt 32 r.adj
        pllTotal := BitVec.ofNat 32 r.total
        pllPpm := BitVec.ofNat 32 r.best.err } }

/-- The search and its two endings (41_pll.md R141, R152, R153). -/
def State.endSearch (found : Option Accepted) (s : State) : State :=
  match found with
  | some r => (s.writeResult r).complete
  | none => s.raiseError .unsat

/-- PLLSYN (41_pll.md R141, R142). An absent search makes it illegal (00_scope.md R11). Parameters that break
R10 are refused at the first rule that reads one (93_implementation_defined.md U8). -/
def execPllsyn (s : State) : Result :=
  if s.tie.pllPresent = false then .next (s.raiseError .illegalCmd)
  else if s.latched.targetClk.toNat = 0 ∨ s.latched.baseTotal.toNat = 0 then .next (s.raiseError .badClock)
  else if ¬ s.tie.pll.Wf then .refused .badConfiguration
  else if s.latched.targetClk.toNat > s.tie.pll.clockMax then .next (s.raiseError .clockHigh)
  else .next (s.endSearch (synthesize ppm s.tie.pll s.latched.targetClk.toNat s.latched.baseTotal.toNat))

end Sys2Proof.Machine
end

