-- ==== Sys2Proof/Machine/Dispatch.lean ====
section
/-! DEFINITION. One arm per command of 30_encoding.md R73, each a call of its meaning. -/

namespace Sys2Proof.Machine

/-- What the engine step of a legal command does (10_state.md R34). -/
def exec (i : Instr) (s : State) : Host.Outcome State Fault Refusal :=
  match i with
  | .nop => Sys2Proof.Machine.execNop s
  | .line16 => Sys2Proof.Machine.execLine16 s
  | .line24 => Sys2Proof.Machine.execLine24 s
  | .frame16 => Sys2Proof.Machine.execFrame16 s
  | .frame24 => Sys2Proof.Machine.execFrame24 s
  | .pllsyn => Sys2Proof.Machine.execPllsyn s

end Sys2Proof.Machine
end

