-- ==== Sys2Proof/Machine/HostBus.lean ====
section
/-! DEFINITION. The host's steps (00_scope.md R17): register accesses (10_state.md R22, 30_encoding.md R77, R78),
its own memory accesses (70_reset_and_hazards.md R205) and the reset input (R200 to R202). -/

namespace Sys2Proof.Machine

/-- Whether the host must leave a byte alone: a byte of the source span or of the window of the command in flight
(70_reset_and_hazards.md R205, 93_implementation_defined.md U4). DEDUCED: by its operands, whatever its checks would say
(log entry 9). -/
def State.owned (s : State) (a : Nat) : Bool :=
  match s.inFlight with
  | none => false
  | some c => c.inWindow a || c.inSourceSpan a

/-- Whether a byte is in the destination window of the command in flight (70_reset_and_hazards.md R205). -/
def State.inBusyWindow (s : State) (a : Nat) : Bool :=
  match s.inFlight with
  | none => false
  | some c => c.inWindow a

/-- The written set of the command in flight, inside the memory space (70_reset_and_hazards.md R202). DEDUCED: by its
operands, whatever its checks would say (log entry 8). -/
def State.abortedBytes (s : State) : List Nat :=
  match s.inFlight with
  | none => []
  | some c => c.writtenSet.filter fun a => decide (a < Config.memBytes)

/-- The reset input (70_reset_and_hazards.md R200 to R202): registers and `L` zero, no command in flight, the
written set of an aborted command any value, the rest of memory and the tie-offs unchanged. -/
def State.resetNow (s : State) : State :=
  { s.freeBytes s.abortedBytes with regs := .zero, status := .zero, latched := .zero }

/-- The host reads a byte of memory (70_reset_and_hazards.md R205): any value in the window of the command in
flight. -/
def State.hostReads (a : Nat) (s : State) : State :=
  if s.inBusyWindow a then { s.observe (.byte a (Config.freeByte s.draws)) with draws := s.draws + 1 }
  else s.observe (.byte a (s.mem.read a))

/-- `wait` (30_encoding.md R78): read STATUS, and stay while BUSY reads 1. DESIGN CHOICE: one read a step (log
entry 13). -/
def State.hostWaits (s : State) : State :=
  if s.status.busy then { s.observe (.reg Reg.status.offset s.status.word) with host := .wait :: s.host }
  else s.observe (.reg Reg.status.offset s.status.word)

/-- One host step. -/
def State.hostStep (op : HostStep) (s : State) : Result :=
  match op with
  | .regRead addr bits =>
    match regAccess s.tie addr bits with
    | .error r => .refused r
    | .ok r => .next (s.observe (.reg r.offset (s.readReg r)))
  | .regWrite addr bits v =>
    match regAccess s.tie addr bits with
    | .error r => .refused r
    | .ok r => .next (s.writeReg r v)
  | .wait => .next s.hostWaits
  | .memRead a => if Config.memBytes ≤ a then .fault .noSuchAddress else .next (s.hostReads a)
  | .memWrite a v =>
    if Config.memBytes ≤ a then .fault .noSuchAddress
    else if s.owned a then .refused .ownedBuffer
    else .next { s with mem := s.mem.write a v }
  | .reset => .next s.resetNow

/-- `rd REG` (30_encoding.md R77). -/
def HostStep.rd (tie : TieOffs) (r : Reg) : HostStep := .regRead (windowBase tie + r.offset) 32

/-- `wr REG, v` (30_encoding.md R77). -/
def HostStep.wr (tie : TieOffs) (r : Reg) (v : Word) : HostStep := .regWrite (windowBase tie + r.offset) 32 v

/-- `cmd NAME` (30_encoding.md R78). -/
def HostStep.cmd (tie : TieOffs) (i : Instr) : HostStep := HostStep.wr tie .cmd (encode i)

/-- `clr` (30_encoding.md R78). -/
def HostStep.clr (tie : TieOffs) : HostStep := HostStep.wr tie .status 0x0000000E

end Sys2Proof.Machine
end

