-- ==== Sys2Proof/Machine/Engine.lean ====
section
/-! DEFINITION. Which agent moves (00_scope.md R17), the engine's step (10_state.md R34) and how a command word is
placed where that step reads it. -/

namespace Sys2Proof.Machine

/-- Whose step is next, with what is left to do and of the schedule. -/
inductive Turn where
  | idle
  | engine (sched : List Agent)
  | host (op : HostStep) (rest : List HostStep) (sched : List Agent)
  deriving DecidableEq, Repr

/-- The engine is enabled exactly while BUSY (00_scope.md R17), the host while it has something to do. When both
are, the schedule says which moves; an exhausted schedule gives the engine its step, so a command waits for
finitely many host steps (70_reset_and_hazards.md R210). DESIGN CHOICE (log entry 6). -/
def State.turn (s : State) : Turn :=
  match s.status.busy, s.host, s.sched with
  | false, [], _ => .idle
  | false, op :: rest, q => .host op rest q
  | true, [], q => .engine q
  | true, _ :: _, [] => .engine []
  | true, _ :: _, .engine :: q => .engine q
  | true, op :: rest, .host :: q => .host op rest q

/-- The engine step (10_state.md R34): the command latched in `L`, or ILLEGAL_CMD (30_encoding.md R74). -/
def State.engineStep (s : State) : Result :=
  match decode s.tie.pllPresent s.latched.cmd with
  | .ok i => exec i s
  | .error _ => .next (s.raiseError .illegalCmd)

/-- One step of the machine; with no agent enabled it idles (70_reset_and_hazards.md R203). -/
def State.agentStep (s : State) : Result :=
  match s.turn with
  | .idle => .next s
  | .engine q => State.engineStep { s with sched := q }
  | .host op rest q => State.hostStep op { s with host := rest, sched := q }

/-- `w` as the command in flight: issued as a host write to CMD issues it, or put in the place of the command that
is in flight already. -/
def State.placeCommand (s : State) (w : Word) : State :=
  if s.status.busy then { s with regs := { s.regs with cmd := w }, latched := { s.latched with cmd := w } }
  else s.issue w

/-- The next step is the engine's. -/
def State.engineNext (s : State) : State :=
  match s.host with
  | [] => s
  | _ :: _ => { s with sched := .engine :: s.sched }

end Sys2Proof.Machine
end

