-- ==== Sys2Proof/Machine/Step.lean ====
section
/-! DEFINITION. The step of the machine, and how a command comes to be its next instruction. -/

namespace Sys2Proof.Machine

/-- One step: a step of the host or of the engine (00_scope.md R17). -/
def step (s : State) : Host.Outcome State Fault Refusal := s.agentStep

/-- The state in which `w` is the command in flight and the engine moves next. A PXDS program is not in memory: a
host writes each command word to CMD (30_encoding.md R77, 20_memory.md R68). DESIGN CHOICE (log entry 10). -/
def State.withFetchWord (s : State) (nbits w : Nat) : State :=
  (s.placeCommand (BitVec.ofNat 32 (w % 2 ^ nbits))).engineNext

end Sys2Proof.Machine
end

