-- ==== Sys2Proof/Safety.lean ====
section
/-! DEFINITION. The terms claims are made in: what a legal state is, and what a run without a stop is. -/

namespace Sys2Proof.Machine

/-- The legal values of STATUS (10_state.md R24): ERRCODE is not 0 exactly when ERR is 1, and BUSY goes with neither
DONE nor ERR. -/
def Status.Legal (t : Status) : Prop :=
  (t.errCode ≠ .none ↔ t.err = true) ∧ (t.busy = true → t.done = false ∧ t.err = false)

/-- While a command is in flight its word is the one CMD reads as (10_state.md R35). -/
def State.LatchMatches (s : State) : Prop := s.status.busy = true → s.latched.cmd = s.regs.cmd

/-- No result since reset: the six result registers read 0 (10_state.md R29). -/
def State.NoResult (s : State) : Prop :=
  s.regs.pllCfg = 0 ∧ s.regs.pllDiv = 0 ∧ s.regs.pllClk = 0 ∧ s.regs.pllAdj = 0 ∧ s.regs.pllTotal = 0 ∧
    s.regs.pllPpm = 0

/-- MULT, `PLL_CFG[7:0]` (10_state.md R29). -/
def State.mult (s : State) : Nat := (s.regs.pllCfg.extractLsb' 0 8).toNat

/-- PRESC, `PLL_CFG[9:8]` (10_state.md R29). -/
def State.presc (s : State) : Nat := (s.regs.pllCfg.extractLsb' 8 2).toNat

/-- BAND, `PLL_CFG[13:12]` (10_state.md R29). -/
def State.bandField (s : State) : Nat := (s.regs.pllCfg.extractLsb' 12 2).toNat

/-- The VCO frequency of the result as a host recomputes it (41_pll.md R158). -/
def State.resultVco (s : State) : Nat := (s.tie.pll.fRef * s.mult) / s.presc

/-- The result registers hold a result of the search (10_state.md R29 to R31, 41_pll.md R158). -/
structure State.LegalResult (s : State) : Prop where
  mult_range : 1 ≤ s.mult ∧ s.mult ≤ 128
  presc_set : s.presc = 1 ∨ s.presc = 2
  reserved_low : s.regs.pllCfg.extractLsb' 10 2 = 0
  reserved_high : s.regs.pllCfg.extractLsb' 14 18 = 0
  vco_range : s.tie.pll.vcoMin ≤ s.resultVco ∧ s.resultVco ≤ s.tie.pll.vcoMax
  band_code : s.bandField = band s.tie.pll s.resultVco
  divisor : s.regs.pllDiv.toNat ∈ s.tie.pll.divisors
  clock : s.regs.pllClk.toNat = s.resultVco / s.regs.pllDiv.toNat
  adj_range : -10 ≤ s.regs.pllAdj.toInt ∧ s.regs.pllAdj.toInt ≤ 10
  total_pos : 1 ≤ s.regs.pllTotal.toNat
  ppm_bound : s.regs.pllPpm.toNat ≤ s.tie.pll.ppmMax

/-- Without the PLL search its registers hold nothing (10_state.md R32, 00_scope.md R11). -/
def State.AbsentPllZero (s : State) : Prop :=
  s.tie.pllPresent = false → s.regs.targetClk = 0 ∧ s.regs.baseTotal = 0 ∧ s.NoResult

/-- The invariant of the machine. -/
structure State.Inv (s : State) : Prop where
  mem_wf : s.mem.Wf
  status_legal : s.status.Legal
  latch_matches : s.LatchMatches
  result_legal : s.NoResult ∨ s.LegalResult
  absent_zero : s.AbsentPllZero
  params_wf : s.tie.pll.Wf

/-- The machine takes `n` steps from `s` and neither faults nor is refused. -/
def runsSafely (n : Nat) (s : State) : Prop := ∃ t, Host.Core.run Sys2Proof.core n s = .next t

end Sys2Proof.Machine
end

