-- ==== Sys2Proof/Certificates/Slice0/Obligations.lean ====
section
/-! DEFINITION. The statements of slice 0. `Sys2Proof.Claims` first writes down, in the spec's own arithmetic, the terms
several of them share; each obligation then says which rule it formalises. -/

namespace Sys2Proof.Claims

open Sys2Proof.Machine

/-! ### Terms of 40_convert.md -/

/-- The latched operands as integers (30_encoding.md R75). -/
def S (s : State) : Nat := s.latched.srcAddr.toNat
def D (s : State) : Nat := s.latched.dstAddr.toNat
def W (s : State) : Nat := s.latched.width.toNat
def H (s : State) : Nat := s.latched.height.toNat
def P (s : State) : Nat := s.latched.srcPitch.toNat

/-- `ceil8(n)` (00_scope.md R14). -/
def up8 (n : Nat) : Nat := 8 * ((n + 7) / 8)

/-- A source pixel: four bytes of memory, the lowest address in bits 7..0 (20_memory.md R52, 40_convert.md R102). -/
def pixelAt (m : Memory) (a : Nat) : Word := m.read (a + 3) ++ m.read (a + 2) ++ m.read (a + 1) ++ m.read a

/-- `rgb565(p) = p[23:19] ++ p[15:10] ++ p[7:3]` (40_convert.md R103). -/
def rgb16 (p : Word) : BitVec 16 := p.extractLsb' 19 5 ++ p.extractLsb' 10 6 ++ p.extractLsb' 3 5

/-- STATUS after a command that ends without an error (60_exceptions.md R182). -/
def endedOk (s : State) : Status := { s.status with busy := false, done := true }

/-- STATUS after a command that ends with an error (60_exceptions.md R182). -/
def endedWith (code : ErrCode) (s : State) : Status :=
  { busy := false, done := true, err := true, ovr := s.status.ovr, errCode := code }

/-- No RANGE error: `span` source bytes at `src` and the window of `len` stream bytes at `dst` lie in memory
(40_convert.md R108, R109). -/
abbrev InRange (src span dst len : Nat) : Prop := src + span ≤ 2 ^ 32 ∧ dst + up8 len ≤ 2 ^ 32

/-- The source span and the window intersect (40_convert.md R108). -/
abbrev Meets (src span dst len : Nat) : Prop := 0 < span ∧ 0 < len ∧ src < dst + up8 len ∧ dst < src + span

/-- Every source byte and every byte of the written set is admitted (40_convert.md R108, R109, R106). -/
abbrev AllAdmitted (tie : TieOffs) (src pitch w h dst len : Nat) : Prop :=
  (∀ y < h, ∀ x < w, ∀ j < 4, admits tie (src + y * pitch + 4 * x + j) = true) ∧
    ∀ k < len, admits tie (dst + (k ^^^ 4)) = true

/-- ALIGN does not apply to a line (40_convert.md R108). -/
abbrev LineAligned (s : State) : Prop := S s % 4 = 0 ∧ D s % 8 = 0

/-- A line passes ALIGN, RANGE and OVERLAP (40_convert.md R108). -/
abbrev LineFits (bpp : Nat) (s : State) : Prop :=
  LineAligned s ∧ InRange (S s) (4 * W s) (D s) (bpp * W s) ∧ ¬ Meets (S s) (4 * W s) (D s) (bpp * W s)

/-- Every byte of a line is admitted (40_convert.md R108). -/
abbrev LineAdmitted (bpp : Nat) (s : State) : Prop := AllAdmitted s.tie (S s) 0 (W s) 1 (D s) (bpp * W s)

/-- BAD_DIM does not apply to a frame (40_convert.md R109). -/
abbrev FrameDims (s : State) : Prop := W s ≠ 0 ∧ H s ≠ 0 ∧ 4 * W s ≤ P s

/-- ALIGN does not apply to a frame (40_convert.md R109). -/
abbrev FrameAligned (s : State) : Prop := S s % 4 = 0 ∧ P s % 4 = 0 ∧ D s % 8 = 0

/-- `Ss = (H-1)*P + 4*W` (40_convert.md R109). -/
def frameSpan (s : State) : Nat := (H s - 1) * P s + 4 * W s

/-- A frame passes BAD_DIM, ALIGN, RANGE and OVERLAP (40_convert.md R109). -/
abbrev FrameFits (bpp : Nat) (s : State) : Prop :=
  FrameDims s ∧ FrameAligned s ∧ InRange (S s) (frameSpan s) (D s) (bpp * W s * H s) ∧
    ¬ Meets (S s) (frameSpan s) (D s) (bpp * W s * H s)

/-- Every byte of a frame is admitted (40_convert.md R109). -/
abbrev FrameAdmitted (bpp : Nat) (s : State) : Prop := AllAdmitted s.tie (S s) (P s) (W s) (H s) (D s) (bpp * W s * H s)

/-- An address is in the written set of `len` stream bytes at `dst` (40_convert.md R106). -/
abbrev Written (dst len a : Nat) : Prop := ∃ k < len, a = dst + (k ^^^ 4)

/-- What a command that ends in BUS answers (40_convert.md R116): code BUS; stream byte `k`'s place holds free value number
`k` from where the draw counter stood, every other byte is unchanged, and the counter has moved past the values drawn. -/
abbrev EndsInBus (i : Instr) (s : State) (dst len : Nat) : Prop :=
  ∃ m : Memory,
    exec i s = .next { s with mem := m, draws := s.draws + len, status := endedWith .bus s } ∧
      (∀ k < len, m.read (dst + (k ^^^ 4)) = Config.freeByte (s.draws + k)) ∧
      ∀ a, ¬ Written dst len a → m.read a = s.mem.read a

/-- The body of the loops of 40_convert.md R111 and R113 for stream pixel `j`, whose source address is `a`. -/
def putPixel16 (dst j a : Nat) (m : Memory) : Memory :=
  (m.write (dst + ((2 * j) ^^^ 4)) ((rgb16 (pixelAt m a)).extractLsb' 0 8)).write (dst + ((2 * j + 1) ^^^ 4))
    ((rgb16 (pixelAt m a)).extractLsb' 8 8)

/-- The body of the loops of 40_convert.md R112 and R114 for stream pixel `j`, whose source address is `a`. -/
def putPixel24 (dst j a : Nat) (m : Memory) : Memory :=
  ((m.write (dst + ((3 * j) ^^^ 4)) ((pixelAt m a).extractLsb' 16 8)).write (dst + ((3 * j + 1) ^^^ 4))
    ((pixelAt m a).extractLsb' 8 8)).write (dst + ((3 * j + 2) ^^^ 4)) ((pixelAt m a).extractLsb' 0 8)

/-- `for i in 0 .. n-1` of 40_convert.md R111 and R112: each pixel is read from memory as the loop has left it. -/
def lineLoop (put : Nat → Nat → Nat → Memory → Memory) (src dst n : Nat) (m : Memory) : Memory :=
  (List.range n).foldl (fun m i => put dst i (src + 4 * i) m) m

/-- `for y in 0 .. H-1: for x in 0 .. W-1` of 40_convert.md R113 and R114. -/
def frameLoop (put : Nat → Nat → Nat → Memory → Memory) (src dst w h p : Nat) (m : Memory) : Memory :=
  (List.range h).foldl
    (fun m y => (List.range w).foldl (fun m x => put dst (y * w + x) (src + y * p + 4 * x) m) m) m

/-- The state in which line `y` of a frame is the line of the latched command (40_convert.md R118). -/
def lineOfFrame (bpp : Nat) (s : State) (y : Nat) (m : Memory) : State :=
  { s with
    mem := m
    latched :=
      { s.latched with
        srcAddr := BitVec.ofNat 32 (S s + y * P s)
        dstAddr := BitVec.ofNat 32 (D s + y * (bpp * W s)) } }

/-- The four conversion commands. -/
def conversions : List Instr := [.line16, .line24, .frame16, .frame24]

/-! ### Terms of 41_pll.md -/

/-- The latched target clock and line total. -/
def clk (s : State) : Nat := s.latched.targetClk.toNat
def tot (s : State) : Nat := s.latched.baseTotal.toNat

/-- `ADJ_SEQ` written out (41_pll.md R143). -/
def adjustments : List Int :=
  [0, -1, 1, -2, 2, -3, 3, -4, 4, -5, 5, -6, 6, -7, 7, -8, 8, -9, 9, -10, 10]

/-- An adjusted total a register can hold (41_pll.md R144). -/
abbrev GoodTotal (s : State) (a : Int) : Prop := 1 ≤ (tot s : Int) + a ∧ (tot s : Int) + a ≤ 4294967295

/-- The adjusted clock of an adjustment (41_pll.md R145). -/
def adjClk (s : State) (a : Int) : Nat := clk s * ((tot s : Int) + a).toNat / tot s

/-- The adjustment is tried and its best triple is accepted (41_pll.md R144, R150). -/
abbrev Accepts (s : State) (a : Int) (b : Triple) : Prop :=
  GoodTotal s a ∧ adjClk s a ≠ 0 ∧ search ppm s.tie.pll (adjClk s a) = some b ∧ b.err ≤ s.tie.pll.ppmMax

/-- The adjustment is skipped or rejected (41_pll.md R144, R150). -/
abbrev Rejects (s : State) (a : Int) : Prop :=
  ¬ GoodTotal s a ∨ adjClk s a = 0 ∨ search ppm s.tie.pll (adjClk s a) = none ∨
    ∃ b, search ppm s.tie.pll (adjClk s a) = some b ∧ s.tie.pll.ppmMax < b.err

/-- PLLSYN passes its argument checks on a build that has the search (41_pll.md R140, R142). -/
abbrev PllReady (s : State) : Prop :=
  s.tie.pllPresent = true ∧ s.tie.pll.Wf ∧ clk s ≠ 0 ∧ tot s ≠ 0 ∧ clk s ≤ s.tie.pll.clockMax

/-- A prescaler, multiplier and divisor the search visits (41_pll.md R147, R149). -/
abbrev Visited (pll : PllParams) (p m dv : Nat) : Prop :=
  (p = 1 ∨ p = 2) ∧ 1 ≤ m ∧ m ≤ 128 ∧ dv ∈ pll.divisors ∧ pll.vcoMin ≤ pll.fRef * m / p ∧
    pll.fRef * m / p ≤ pll.vcoMax

/-- `ppm(v, dv, ta)` (41_pll.md R148). -/
def ppmOf (v dv ta : Nat) : Nat := (((v * 1000000 / (dv * ta) : Nat) : Int) - 1000000).natAbs

/-- Visited no later: prescaler, then multiplier, then divisor (41_pll.md R149). -/
abbrev NotAfter (p m dv p' m' dv' : Nat) : Prop := p < p' ∨ p = p' ∧ (m < m' ∨ m = m' ∧ dv ≤ dv')

/-! ### Other terms -/

/-- The live parameter registers hold other values. -/
def withParams (a b c d e f g : Word) (s : State) : State :=
  { s with
    regs :=
      { s.regs with
        srcAddr := a, dstAddr := b, width := c, height := d, srcPitch := e, targetClk := f, baseTotal := g } }

/-- The read-only registers and the reserved slot (10_state.md R22). -/
def readOnlyRegs : List Reg := [.pllCfg, .pllDiv, .pllClk, .pllAdj, .pllTotal, .pllPpm, .reserved]

/-- The registers at offsets 0x1C to 0x38 (10_state.md R32). -/
def pllRegs : List Reg :=
  [.targetClk, .baseTotal, .pllCfg, .pllDiv, .pllClk, .pllAdj, .pllTotal, .pllPpm]

/-- The parameter registers every build has (10_state.md R26, R27). -/
def convRegs : List Reg := [.srcAddr, .dstAddr, .width, .height, .srcPitch]

/-- The six result registers are the same in both states. -/
abbrev SameResult (s t : State) : Prop :=
  t.regs.pllCfg = s.regs.pllCfg ∧ t.regs.pllDiv = s.regs.pllDiv ∧ t.regs.pllClk = s.regs.pllClk ∧
    t.regs.pllAdj = s.regs.pllAdj ∧ t.regs.pllTotal = s.regs.pllTotal ∧ t.regs.pllPpm = s.regs.pllPpm

end Sys2Proof.Claims

open Sys2Proof Sys2Proof.Machine Sys2Proof.Claims

/-! ### Encoding (30_encoding.md) -/

/-- R73, R76: the six legal words, each with its command; every other word is illegal. -/
def Obligations.OpcodeMapIsComplete : Prop :=
  ∀ (pll : Bool) (w : Word) (i : Instr), decode pll w = .ok i ↔
    (w = 0x00000000 ∧ i = .nop) ∨ (w = 0x00000012 ∧ i = .line16) ∨ (w = 0x00000013 ∧ i = .line24) ∨
      (w = 0x00000022 ∧ i = .frame16) ∨ (w = 0x00000023 ∧ i = .frame24) ∨
      (w = 0x00000030 ∧ i = .pllsyn ∧ pll = true)

/-- The encoder is the decoder's inverse on the commands a build has (R73). -/
def Obligations.EncodedCommandsDecodeBack : Prop :=
  ∀ (pll : Bool) (i : Instr), i.wellFormed pll = true → decode pll (encode i) = .ok i

/-- Words written out bit by bit from R70 and R73, and illegal words of 95_test_vectors.md 2.5. -/
def Obligations.WrittenOutWordsDecode : Prop :=
  decode true 0b00000000000000000000000000000000 = .ok .nop ∧
    decode true 0b00000000000000000000000000010010 = .ok .line16 ∧
    decode true 0b00000000000000000000000000010011 = .ok .line24 ∧
    decode true 0b00000000000000000000000000100010 = .ok .frame16 ∧
    decode true 0b00000000000000000000000000100011 = .ok .frame24 ∧
    decode true 0b00000000000000000000000000110000 = .ok .pllsyn ∧
    decode true 0b00000000000000000000000000010001 = .error .unknownOp ∧
    decode true 0b00000000000000000000000100010010 = .error .reservedBits ∧
    decode false 0b00000000000000000000000000110000 = .error .pllAbsent

/-! ### Steps (00_scope.md R17, 10_state.md R34) -/

/-- While BUSY, when it is the engine's turn, a step is `exec` of the command in `L`, or ILLEGAL_CMD. It is the engine's
turn when the host has nothing to do, or the schedule says so or is exhausted (the schedule is the model's, log
entry 6). -/
def Obligations.EngineStepRunsLatchedCommand : Prop :=
  ∀ (s : State) (q : List Agent), s.status.busy = true →
    (s.host = [] ∧ q = s.sched ∨ s.host ≠ [] ∧ (s.sched = [] ∧ q = [] ∨ s.sched = .engine :: q)) →
    (∀ i, decode s.tie.pllPresent s.latched.cmd = .ok i → step s = exec i { s with sched := q }) ∧
      ∀ e, decode s.tie.pllPresent s.latched.cmd = .error e →
        step s = .next { s with sched := q, status := endedWith .illegalCmd s }

/-- The host's turn: its first pending access is performed (R17; the schedule and the host's list are the model's, log entries
6 and 10). With nothing to do on either side the machine idles (that it then answers the same state is the model's choice,
log entry 6). -/
def Obligations.HostStepRunsPendingAccess : Prop :=
  ∀ s : State, (s.status.busy = false → s.host = [] → step s = .next s) ∧
    ∀ (op : HostStep) (rest : List HostStep), s.host = op :: rest →
      (s.status.busy = false → step s = State.hostStep op { s with host := rest }) ∧
        ∀ q, s.status.busy = true → s.sched = .host :: q →
          step s = State.hostStep op { s with host := rest, sched := q }

/-- A word placed by `withFetchWord` is the very next command the machine runs (the placing is the model's, log
entry 10). -/
def Obligations.PlacedWordRunsNext : Prop :=
  ∀ (s : State) (w : Nat) (i : Instr), decode s.tie.pllPresent (BitVec.ofNat 32 w) = .ok i → w < 2 ^ 32 →
    step (s.withFetchWord 32 w) = exec i (s.placeCommand (BitVec.ofNat 32 w)) ∧
      (s.placeCommand (BitVec.ofNat 32 w)).latched.cmd = BitVec.ofNat 32 w ∧
      (s.placeCommand (BitVec.ofNat 32 w)).status.busy = true ∧
      (s.placeCommand (BitVec.ofNat 32 w)).mem = s.mem

/-- R74: an illegal word is stored in CMD and issued; its engine step raises ILLEGAL_CMD and does nothing else. -/
def Obligations.IllegalWordIsIssuedAndFails : Prop :=
  ∀ (s : State) (w : Word),
    w ∉ [0x00000000#32, 0x00000012#32, 0x00000013#32, 0x00000022#32, 0x00000023#32] →
    (w = 0x00000030#32 → s.tie.pllPresent = false) → s.status.busy = false →
    (s.writeReg .cmd w).regs.cmd = w ∧ (s.writeReg .cmd w).status.busy = true ∧
      (s.writeReg .cmd w).engineStep =
        .next { s.writeReg .cmd w with status := endedWith .illegalCmd s }

/-- Whole machine: only a host write to CMD issues a command, and only the engine step or reset ends one
(10_state.md R33, R34; 70_reset_and_hazards.md R203). -/
def Obligations.BusyChangesOnlyByIssueEngineOrReset : Prop :=
  ∀ s t : State, step s = .next t →
    (s.status.busy = false → t.status.busy = true →
      ∃ v rest, s.host = .regWrite (windowBase s.tie) 32 v :: rest ∧ t.regs.cmd = v ∧ t.latched.cmd = v) ∧
      (s.status.busy = true → t.status.busy = false →
        (∃ q, s.turn = .engine q) ∨ ∃ rest, s.host = .reset :: rest)

/-- R210: a command in flight ends after finitely many host steps, unless a step stops the machine. The bound is the
schedule's length (log entry 6). -/
def Obligations.CommandEndsWithinSchedule : Prop :=
  ∀ s : State, s.status.busy = true →
    ∃ k ≤ s.sched.length + 1,
      (∃ t, Host.Core.run Sys2Proof.core k s = .next t ∧ t.status.busy = false) ∨ ¬ runsSafely k s

/-! ### Commands that convert (40_convert.md) -/

/-- R110: NOP completes, and changes nothing but BUSY and DONE; issued on an idle machine without an overrun it leaves
`STATUS = 0x00000002`. -/
def Obligations.NopCompletes : Prop :=
  (∀ s : State, exec .nop s = .next { s with status := endedOk s }) ∧
    ∀ s : State, s.status.busy = false → s.status.ovr = false →
      ∃ t, (s.writeReg .cmd 0x00000000).engineStep = .next t ∧ t.status.word = 0x00000002

/-- LINE16 (R111) under the parameters of R8: where the checks of R108 pass it completes; pixel `i` is read back as
`rgb565` at stream bytes `2i` and `2i+1`, swizzled; nothing else changes. -/
def Obligations.Line16Converts : Prop :=
  ∀ s : State, s.mem.Wf → s.tie.conv = .spec → LineFits 2 s → LineAdmitted 2 s →
    ∃ m : Memory,
      exec .line16 s = .next { s with mem := m, status := endedOk s } ∧
        (∀ i < W s,
          m.read (D s + ((2 * i) ^^^ 4)) = (rgb16 (pixelAt s.mem (S s + 4 * i))).extractLsb' 0 8 ∧
            m.read (D s + ((2 * i + 1) ^^^ 4)) = (rgb16 (pixelAt s.mem (S s + 4 * i))).extractLsb' 8 8) ∧
        ∀ a, ¬ Written (D s) (2 * W s) a → m.read a = s.mem.read a

/-- LINE24 (R112) under the parameters of R8: R, G, B of pixel `i` are read back at stream bytes `3i`, `3i+1`,
`3i+2`, swizzled; nothing else changes. -/
def Obligations.Line24Converts : Prop :=
  ∀ s : State, s.mem.Wf → s.tie.conv = .spec → LineFits 3 s → LineAdmitted 3 s →
    ∃ m : Memory,
      exec .line24 s = .next { s with mem := m, status := endedOk s } ∧
        (∀ i < W s,
          m.read (D s + ((3 * i) ^^^ 4)) = (pixelAt s.mem (S s + 4 * i)).extractLsb' 16 8 ∧
            m.read (D s + ((3 * i + 1) ^^^ 4)) = (pixelAt s.mem (S s + 4 * i)).extractLsb' 8 8 ∧
            m.read (D s + ((3 * i + 2) ^^^ 4)) = (pixelAt s.mem (S s + 4 * i)).extractLsb' 0 8) ∧
        ∀ a, ¬ Written (D s) (3 * W s) a → m.read a = s.mem.read a

/-- FRAME16 (R113) under the parameters of R8: pixel `(x, y)` is stream pixel `y*W + x`; nothing else changes. -/
def Obligations.Frame16Converts : Prop :=
  ∀ s : State, s.mem.Wf → s.tie.conv = .spec → FrameFits 2 s → FrameAdmitted 2 s →
    ∃ m : Memory,
      exec .frame16 s = .next { s with mem := m, status := endedOk s } ∧
        (∀ y < H s, ∀ x < W s,
          m.read (D s + ((2 * (y * W s + x)) ^^^ 4)) =
              (rgb16 (pixelAt s.mem (S s + y * P s + 4 * x))).extractLsb' 0 8 ∧
            m.read (D s + ((2 * (y * W s + x) + 1) ^^^ 4)) =
              (rgb16 (pixelAt s.mem (S s + y * P s + 4 * x))).extractLsb' 8 8) ∧
        ∀ a, ¬ Written (D s) (2 * W s * H s) a → m.read a = s.mem.read a

/-- FRAME24 (R114) under the parameters of R8. -/
def Obligations.Frame24Converts : Prop :=
  ∀ s : State, s.mem.Wf → s.tie.conv = .spec → FrameFits 3 s → FrameAdmitted 3 s →
    ∃ m : Memory,
      exec .frame24 s = .next { s with mem := m, status := endedOk s } ∧
        (∀ y < H s, ∀ x < W s,
          m.read (D s + ((3 * (y * W s + x)) ^^^ 4)) =
              (pixelAt s.mem (S s + y * P s + 4 * x)).extractLsb' 16 8 ∧
            m.read (D s + ((3 * (y * W s + x) + 1) ^^^ 4)) =
              (pixelAt s.mem (S s + y * P s + 4 * x)).extractLsb' 8 8 ∧
            m.read (D s + ((3 * (y * W s + x) + 2) ^^^ 4)) =
              (pixelAt s.mem (S s + y * P s + 4 * x)).extractLsb' 0 8) ∧
        ∀ a, ¬ Written (D s) (3 * W s * H s) a → m.read a = s.mem.read a

/-- The pseudocode of R111 to R114 as it is written, reading each pixel from memory as the loop has left it, gives exactly
the state the model's commands give. -/
def Obligations.ConversionsRunThePseudocode : Prop :=
  ∀ s : State, s.tie.conv = .spec →
    (LineFits 2 s → LineAdmitted 2 s →
      exec .line16 s = .next { s with mem := lineLoop putPixel16 (S s) (D s) (W s) s.mem, status := endedOk s }) ∧
    (LineFits 3 s → LineAdmitted 3 s →
      exec .line24 s = .next { s with mem := lineLoop putPixel24 (S s) (D s) (W s) s.mem, status := endedOk s }) ∧
    (FrameFits 2 s → FrameAdmitted 2 s →
      exec .frame16 s = .next
        { s with mem := frameLoop putPixel16 (S s) (D s) (W s) (H s) (P s) s.mem, status := endedOk s }) ∧
    (FrameFits 3 s → FrameAdmitted 3 s →
      exec .frame24 s = .next
        { s with mem := frameLoop putPixel24 (S s) (D s) (W s) (H s) (P s) s.mem, status := endedOk s })

/-- The errors of a line in their order, each with nothing but STATUS changed (R108; 60_exceptions.md R181). -/
def Obligations.LineErrorsInOrder : Prop :=
  ∀ (i : Instr) (bpp : Nat), (i, bpp) ∈ [(Instr.line16, 2), (Instr.line24, 3)] → ∀ s : State,
    (¬ LineAligned s → exec i s = .next { s with status := endedWith .align s }) ∧
    (LineAligned s → ¬ InRange (S s) (4 * W s) (D s) (bpp * W s) →
      exec i s = .next { s with status := endedWith .range s }) ∧
    (LineAligned s → InRange (S s) (4 * W s) (D s) (bpp * W s) → Meets (S s) (4 * W s) (D s) (bpp * W s) →
      exec i s = .next { s with status := endedWith .overlap s })

/-- The errors of a frame in their order, each with nothing but STATUS changed (R109; 60_exceptions.md R181). -/
def Obligations.FrameErrorsInOrder : Prop :=
  ∀ (i : Instr) (bpp : Nat), (i, bpp) ∈ [(Instr.frame16, 2), (Instr.frame24, 3)] → ∀ s : State,
    (¬ FrameDims s → exec i s = .next { s with status := endedWith .badDim s }) ∧
    (FrameDims s → ¬ FrameAligned s → exec i s = .next { s with status := endedWith .align s }) ∧
    (FrameDims s → FrameAligned s → ¬ InRange (S s) (frameSpan s) (D s) (bpp * W s * H s) →
      exec i s = .next { s with status := endedWith .range s }) ∧
    (FrameDims s → FrameAligned s → InRange (S s) (frameSpan s) (D s) (bpp * W s * H s) →
      Meets (S s) (frameSpan s) (D s) (bpp * W s * H s) →
      exec i s = .next { s with status := endedWith .overlap s })

/-- R116: a conversion that passes the other checks and meets a byte that is not admitted ends in BUS; each byte of its
written set then holds a free value of its own (numbered by the model's counter, log entry 7) and every other byte is
unchanged. -/
def Obligations.BusErrorFreesTheWrittenSet : Prop :=
  ∀ s : State, s.mem.Wf →
    (LineFits 2 s → ¬ LineAdmitted 2 s → EndsInBus .line16 s (D s) (2 * W s)) ∧
    (LineFits 3 s → ¬ LineAdmitted 3 s → EndsInBus .line24 s (D s) (3 * W s)) ∧
    (FrameFits 2 s → ¬ FrameAdmitted 2 s → EndsInBus .frame16 s (D s) (2 * W s * H s)) ∧
    (FrameFits 3 s → ¬ FrameAdmitted 3 s → EndsInBus .frame24 s (D s) (3 * W s * H s))

/-- R115, the frame of the four conversions: whatever way one ends, it changes no register but STATUS, keeps OVR, and
writes memory only in its written set. -/
def Obligations.ConversionsWriteOnlyTheWrittenSet : Prop :=
  ∀ i ∈ conversions, ∀ s t : State, exec i s = .next t →
    t = { s with status := t.status, mem := t.mem, draws := t.draws } ∧ t.status.ovr = s.status.ovr ∧
      ∀ c, conversionOf i s.latched = some c →
        ∀ a, ¬ Written c.dst (c.bpp * c.width * c.height) a → t.mem.read a = s.mem.read a

/-- R106: the model's written set and window are the rule's; the written set inside its window, the last group, and the
window bytes a command leaves alone. -/
def Obligations.WrittenSetInItsWindow : Prop :=
  (∀ (c : Conversion) (a : Nat),
    (a ∈ c.writtenSet ↔ Written c.dst (c.bpp * c.width * c.height) a) ∧
      (c.inWindow a = true ↔ c.dst ≤ a ∧ a < c.dst + up8 (c.bpp * c.width * c.height)) ∧
      (a ∈ c.writtenSet → c.inWindow a = true)) ∧
  (∀ d n a : Nat, Written d n a → d ≤ a ∧ a < d + up8 n) ∧
    (∀ d n a : Nat, n % 8 = 0 → d ≤ a → a < d + up8 n → Written d n a) ∧
    (∀ d n a : Nat, Written d n a ↔
      (d ≤ a ∧ a < d + 8 * (n / 8)) ∨ ∃ j < n - 8 * (n / 8), a = d + 8 * (n / 8) + (j ^^^ 4)) ∧
    (∀ d n j : Nat, n - 8 * (n / 8) ≤ 4 → j < 4 → ¬ Written d n (d + 8 * (n / 8) + j)) ∧
    ∀ (i : Instr) (s t : State) (c : Conversion), conversionOf i s.latched = some c → exec i s = .next t →
      ∀ a, c.dst ≤ a → a < c.dst + up8 (c.bpp * c.width * c.height) →
        ¬ Written c.dst (c.bpp * c.width * c.height) a → t.mem.read a = s.mem.read a

/-- R107: "16-bit index XOR 2" and "byte index XOR 4" place the same bytes. -/
def Obligations.HalfwordIndexXor2 : Prop :=
  ∀ i : Nat, swizzle (2 * i) = 2 * (i ^^^ 2) ∧ swizzle (2 * i + 1) = 2 * (i ^^^ 2) + 1

/-- R118, first part: a frame of one line is the line, with a pitch the frame checks accept. -/
def Obligations.OneLineFrameIsLine : Prop :=
  ∀ s : State, H s = 1 → W s ≠ 0 → 4 * W s ≤ P s → P s % 4 = 0 →
    exec .frame16 s = exec .line16 s ∧ exec .frame24 s = exec .line24 s

/-- R118, second part: when a line is a whole number of 8-byte groups, a frame writes what its lines write, line after
line. -/
def Obligations.FrameIsItsLines : Prop :=
  ∀ (fi li : Instr) (bpp : Nat), (fi, li, bpp) ∈ [(Instr.frame16, Instr.line16, 2), (Instr.frame24, Instr.line24, 3)] →
    ∀ s : State, FrameFits bpp s → FrameAdmitted bpp s → bpp * W s % 8 = 0 →
      ∃ ms : Nat → Memory,
        ms 0 = s.mem ∧
          (∀ y < H s, exec li (lineOfFrame bpp s y (ms y)) =
            .next { lineOfFrame bpp s y (ms (y + 1)) with status := endedOk s }) ∧
          exec fi s = .next { s with mem := ms (H s), status := endedOk s }

/-- R119: a conversion that ended without an error, run again, changes nothing; and its destination depends only on its
operands and its source bytes. -/
def Obligations.ConversionsAreRepeatable : Prop :=
  (∀ i ∈ conversions, ∀ s t : State, s.mem.Wf → exec i s = .next t → t.status.err = false →
    exec i t = .next t) ∧
    ∀ i ∈ conversions, ∀ (s₁ s₂ t₁ t₂ : State) (c : Conversion), s₁.mem.Wf → s₂.mem.Wf →
      s₁.latched = s₂.latched → s₁.tie = s₂.tie → conversionOf i s₁.latched = some c →
      (∀ y < c.height, ∀ x < c.width, ∀ j < 4,
        s₁.mem.read (c.src + y * c.pitch + 4 * x + j) = s₂.mem.read (c.src + y * c.pitch + 4 * x + j)) →
      exec i s₁ = .next t₁ → exec i s₂ = .next t₂ → t₁.status.err = false → t₂.status.err = false →
      ∀ a, Written c.dst (c.bpp * c.width * c.height) a → t₁.mem.read a = t₂.mem.read a

/-! ### PLLSYN (41_pll.md) -/

/-- R152, R154: the first accepted adjustment is the result; the six registers are written, and nothing else but
STATUS. -/
def Obligations.PllsynWritesFirstAccepted : Prop :=
  ∀ (s : State) (pre post : List Int) (a : Int) (b : Triple), PllReady s → adjustments = pre ++ a :: post →
    (∀ a' ∈ pre, Rejects s a') → Accepts s a b →
    exec .pllsyn s = .next
      { s with
        status := endedOk s
        regs :=
          { s.regs with
            pllCfg := BitVec.ofNat 32 (4096 * band s.tie.pll b.vco + 256 * b.p + b.m)
            pllDiv := BitVec.ofNat 32 b.dv
            pllClk := BitVec.ofNat 32 (b.vco / b.dv)
            pllAdj := BitVec.ofInt 32 a
            pllTotal := BitVec.ofInt 32 ((tot s : Int) + a)
            pllPpm := BitVec.ofNat 32 b.err } }

/-- R153: when every adjustment is skipped or rejected, PLLSYN raises UNSAT. -/
def Obligations.PllsynUnsatisfiable : Prop :=
  ∀ s : State, PllReady s → (∀ a ∈ adjustments, Rejects s a) →
    exec .pllsyn s = .next { s with status := endedWith .unsat s }

/-- R142: the argument checks, in order. -/
def Obligations.PllsynArgumentChecks : Prop :=
  ∀ s : State, s.tie.pllPresent = true → s.tie.pll.Wf →
    (clk s = 0 ∨ tot s = 0 → exec .pllsyn s = .next { s with status := endedWith .badClock s }) ∧
      (clk s ≠ 0 → tot s ≠ 0 → s.tie.pll.clockMax < clk s →
        exec .pllsyn s = .next { s with status := endedWith .clockHigh s })

/-- Where the search is absent PLLSYN is illegal, by decoding and by its own meaning (R141, 00_scope.md R11). -/
def Obligations.PllsynIllegalWhenAbsent : Prop :=
  ∀ s : State, s.tie.pllPresent = false →
    decode s.tie.pllPresent 0x00000030 = .error .pllAbsent ∧
      exec .pllsyn s = .next { s with status := endedWith .illegalCmd s }

/-- PLL parameters that break R10 are refused by name (93_implementation_defined.md U8; where in the command it happens is
the model's choice, log entry 4). -/
def Obligations.PllsynRefusesBadParameters : Prop :=
  ∀ s : State, s.tie.pllPresent = true → ¬ s.tie.pll.Wf → clk s ≠ 0 → tot s ≠ 0 →
    exec .pllsyn s = .refused .badConfiguration

/-- The frame of PLLSYN: it changes nothing but STATUS and the six result registers, and keeps OVR. -/
def Obligations.PllsynFrame : Prop :=
  ∀ s t : State, exec .pllsyn s = .next t →
    t = { s with
      status := t.status
      regs :=
        { s.regs with
          pllCfg := t.regs.pllCfg, pllDiv := t.regs.pllDiv, pllClk := t.regs.pllClk, pllAdj := t.regs.pllAdj,
          pllTotal := t.regs.pllTotal, pllPpm := t.regs.pllPpm } } ∧
      t.status.ovr = s.status.ovr

/-- R157: a PLLSYN that raises an error writes none of the result registers. -/
def Obligations.PllsynErrorKeepsResult : Prop :=
  ∀ s t : State, s.status.err = false → exec .pllsyn s = .next t → t.status.err = true → t.regs = s.regs

/-- R147, R149: the search finds a triple exactly when a pair is in range, and what it finds is the first visited of the
triples of least error. -/
def Obligations.SearchFindsFirstMinimum : Prop :=
  ∀ (pll : PllParams) (target : Nat), pll.Wf →
    (search ppm pll target = none ↔ ∀ p m dv, ¬ Visited pll p m dv) ∧
      ∀ b, search ppm pll target = some b →
        Visited pll b.p b.m b.dv ∧ b.vco = pll.fRef * b.m / b.p ∧ b.err = ppmOf b.vco b.dv target ∧
          ∀ p m dv, Visited pll p m dv →
            b.err < ppmOf (pll.fRef * m / p) dv target ∨
              b.err = ppmOf (pll.fRef * m / p) dv target ∧ NotAfter b.p b.m b.dv p m dv

/-- R158: what the result registers hold after a PLLSYN without an error. -/
def Obligations.PllsynResultIsLegal : Prop :=
  ∀ s t : State, s.status.err = false → exec .pllsyn s = .next t → t.status.err = false →
    (t.presc = 1 ∨ t.presc = 2) ∧ 1 ≤ t.mult ∧ t.mult ≤ 128 ∧
      s.tie.pll.vcoMin ≤ s.tie.pll.fRef * t.mult / t.presc ∧ s.tie.pll.fRef * t.mult / t.presc ≤ s.tie.pll.vcoMax ∧
      t.regs.pllDiv.toNat ∈ s.tie.pll.divisors ∧ t.regs.pllPpm.toNat ≤ s.tie.pll.ppmMax ∧
      -10 ≤ t.regs.pllAdj.toInt ∧ t.regs.pllAdj.toInt ≤ 10 ∧
      (t.regs.pllTotal.toNat : Int) = (tot s : Int) + t.regs.pllAdj.toInt

/-- R156: a target some candidate meets exactly is found with error 0 at adjustment 0; and when such a candidate exists for
twice the reference clock. -/
def Obligations.ExactTargetsHaveNoError : Prop :=
  (∀ (s : State) (p m dv : Nat), PllReady s → Visited s.tie.pll p m dv → s.tie.pll.fRef * m / p = dv * clk s →
    ∃ t, exec .pllsyn s = .next t ∧ t.status = endedOk s ∧ t.regs.pllPpm = 0 ∧ t.regs.pllAdj = 0 ∧
      t.regs.pllTotal = s.latched.baseTotal) ∧
    ∀ (pll : PllParams) (dv : Nat), pll.Wf → dv ∈ pll.divisors → dv ≤ 64 → pll.vcoMin ≤ 2 * dv * pll.fRef →
      2 * dv * pll.fRef ≤ pll.vcoMax →
      Visited pll 1 (2 * dv) dv ∧ pll.fRef * (2 * dv) / 1 = dv * (2 * pll.fRef)

/-- R151: the band code counts the edges at or below the frequency. -/
def Obligations.BandCodeOfFrequency : Prop :=
  ∀ (pll : PllParams) (v : Nat), pll.bandEdge1 ≤ pll.bandEdge2 → pll.bandEdge2 ≤ pll.bandEdge3 →
    (v < pll.bandEdge1 → band pll v = 0) ∧
      (pll.bandEdge1 ≤ v → v < pll.bandEdge2 → band pll v = 1) ∧
      (pll.bandEdge2 ≤ v → v < pll.bandEdge3 → band pll v = 2) ∧ (pll.bandEdge3 ≤ v → band pll v = 3)

/-- R146: the two readings of the VCO formula agree for an even reference. -/
def Obligations.VcoReadingsAgreeForEvenReference : Prop :=
  ∀ (pll : PllParams) (p m : Nat), vco pll p m = pll.fRef * m / p ∧
    (pll.fRef % 2 = 0 → p = 1 ∨ p = 2 → vco pll p m = pll.fRef / p * m)

/-! ### Endings and errors (60_exceptions.md) -/

/-- R182: a command that answers a next state has ended; without an error it keeps ERR and ERRCODE, with one it records a
code; and only BUS changes anything else. -/
def Obligations.CommandsEndPrecisely : Prop :=
  ∀ (i : Instr) (s t : State), exec i s = .next t →
    (t.status = endedOk s ∨ ∃ code, code ≠ .none ∧ t.status = endedWith code s) ∧
      ∀ code, code ≠ .bus → code ≠ .none → s.status.err = false → t.status = endedWith code s →
        t = { s with status := endedWith code s }

/-- R180: the codes each command can record, and their values. -/
def Obligations.ErrorCodesOfCommands : Prop :=
  (∀ (i : Instr) (s t : State), s.status.err = false → exec i s = .next t → t.status.err = true →
    (i ∈ [Instr.line16, Instr.line24] ∧ t.status.errCode ∈ [ErrCode.align, .range, .overlap, .bus]) ∨
      (i ∈ [Instr.frame16, Instr.frame24] ∧ t.status.errCode ∈ [ErrCode.badDim, .align, .range, .overlap, .bus]) ∨
      (i = .pllsyn ∧ t.status.errCode ∈ [ErrCode.illegalCmd, .badClock, .clockHigh, .unsat])) ∧
    [ErrCode.none, .illegalCmd, .badDim, .align, .range, .overlap, .bus, .badClock, .clockHigh, .unsat].map
      ErrCode.byte = [0x00, 0x01, 0x02, 0x03, 0x04, 0x05, 0x06, 0x07, 0x08, 0x09]

/-- R188: a CMD write while BUSY only sets OVR, and only a STATUS write with bit 3 set or reset clears it. -/
def Obligations.OverrunIsSticky : Prop :=
  (∀ (s : State) (w : Word), s.status.busy = true →
    s.writeReg .cmd w = { s with status := { s.status with ovr := true } }) ∧
    ∀ s t : State, step s = .next t → s.status.ovr = true → t.status.ovr = false →
      (∃ v rest, s.host = .regWrite (windowBase s.tie + 4) 32 v :: rest ∧ v.getLsbD 3 = true) ∨
        ∃ rest, s.host = .reset :: rest

/-- 00_scope.md R18: what one engine step can change. -/
def Obligations.EngineStepTouchesOnlyItsOwn : Prop :=
  ∀ s t : State, s.status.busy = true → s.engineStep = .next t →
    (∀ a, (∀ c, s.inFlight = some c → ¬ (c.dst ≤ a ∧ a < c.dst + up8 (c.bpp * c.width * c.height))) →
      t.mem.read a = s.mem.read a) ∧
      t.regs = { s.regs with
        pllCfg := t.regs.pllCfg, pllDiv := t.regs.pllDiv, pllClk := t.regs.pllClk, pllAdj := t.regs.pllAdj,
        pllTotal := t.regs.pllTotal, pllPpm := t.regs.pllPpm } ∧
      (s.latched.cmd ≠ 0x00000030 → t.regs = s.regs) ∧
      t.latched = s.latched ∧ t.tie = s.tie ∧ t.host = s.host ∧ t.sched = s.sched ∧ t.seen = s.seen

/-! ### Memory (20_memory.md) -/

/-- R52: the byte at the lowest address is bits 7..0 of the word. -/
def Obligations.SourceWordIsLittleEndian : Prop :=
  ∀ (m : Memory) (a : Nat), m.readWord .le a = pixelAt m a ∧
    ∀ j < 4, (m.readWord .le a).extractLsb' (8 * j) 8 = m.read (a + j)

/-- A byte written reads back and no other byte changes (R53); a write keeps the canonical form, and memories in it that
read alike are equal (the form is the model's, log entry 2). -/
def Obligations.MemoryReadsWhatWasWritten : Prop :=
  (∀ (m : Memory) (a b : Nat) (v : Byte), m.Wf → (m.write a v).read b = if b = a then v else m.read b) ∧
    (∀ (m : Memory) (a : Nat) (v : Byte), m.Wf → a < 2 ^ 32 → (m.write a v).Wf) ∧
    ∀ m n : Memory, m.Wf → n.Wf → (∀ a, m.read a = n.read a) → m = n

/-- R58 and 93_implementation_defined.md U12: which host register accesses have an effect (that one outside the window is
refused is the model's, log entry 12). -/
def Obligations.OnlyAlignedWordAccesses : Prop :=
  ∀ (s : State) (addr bits : Nat) (v : Word),
    (windowBase s.tie ≤ addr → addr < windowBase s.tie + 64 → bits ≠ 32 ∨ addr % 4 ≠ 0 →
      State.hostStep (.regRead addr bits) s = .refused .badRegisterAccess ∧
        State.hostStep (.regWrite addr bits v) s = .refused .badRegisterAccess) ∧
    (addr < windowBase s.tie ∨ windowBase s.tie + 64 ≤ addr →
      State.hostStep (.regRead addr bits) s = .refused .outsideWindow ∧
        State.hostStep (.regWrite addr bits v) s = .refused .outsideWindow)

/-! ### Registers (10_state.md) -/

/-- R22, 30_encoding.md R77: `rd` and `wr` at the offset of a register reach it; a read changes no register
(20_memory.md R60). -/
def Obligations.RegisterAccessesReachTheirSlot : Prop :=
  ∀ (s : State) (r : Reg) (v : Word),
    State.hostStep (.rd s.tie r) s = .next { s with seen := .reg r.offset (s.readReg r) :: s.seen } ∧
      State.hostStep (.wr s.tie r v) s = .next (s.writeReg r v)

/-- R33: a CMD write on an idle machine stores the word, latches it with the parameter registers and sets BUSY; and what
the engine then does does not depend on the live parameter registers. -/
def Obligations.IssueLatchesParameters : Prop :=
  (∀ (s : State) (w : Word), s.status.busy = false →
    s.writeReg .cmd w =
      { s with
        regs := { s.regs with cmd := w }
        latched :=
          { cmd := w, srcAddr := s.readReg .srcAddr, dstAddr := s.readReg .dstAddr, width := s.readReg .width,
            height := s.readReg .height, srcPitch := s.readReg .srcPitch, targetClk := s.readReg .targetClk,
            baseTotal := s.readReg .baseTotal }
        status := { busy := true, done := false, err := false, ovr := s.status.ovr, errCode := .none } }) ∧
    ∀ (s : State) (a b c d e f g : Word),
      (∀ t, s.engineStep = .next t → (withParams a b c d e f g s).engineStep = .next (withParams a b c d e f g t)) ∧
        ∀ r, s.engineStep = .refused r → (withParams a b c d e f g s).engineStep = .refused r

/-- R25: a STATUS write. -/
def Obligations.StatusWriteClearsFields : Prop :=
  ∀ (s : State) (w : Word), s.writeReg .status w =
    { s with
      status :=
        { busy := s.status.busy
          done := s.status.done && !w.getLsbD 1
          err := s.status.err && !w.getLsbD 2
          ovr := s.status.ovr && !w.getLsbD 3
          errCode := if w.getLsbD 2 then .none else s.status.errCode } }

/-- R24: the places of the fields of STATUS; the reserved bits read as 0. -/
def Obligations.StatusFieldPlaces : Prop :=
  ∀ t : Status, t.word.getLsbD 0 = t.busy ∧ t.word.getLsbD 1 = t.done ∧ t.word.getLsbD 2 = t.err ∧
    t.word.getLsbD 3 = t.ovr ∧ t.word.extractLsb' 4 4 = 0 ∧ t.word.extractLsb' 8 8 = t.errCode.byte ∧
    t.word.extractLsb' 16 16 = 0

/-- R26 to R28: a parameter register reads back what was written, BUSY or not, and the write changes nothing else. -/
def Obligations.ParameterRegistersReadBack : Prop :=
  ∀ (s : State) (r : Reg) (w : Word),
    r ∈ convRegs ∨ s.tie.pllPresent = true ∧ r ∈ [Reg.targetClk, .baseTotal] →
    (s.writeReg r w).readReg r = w ∧ (∀ r', r' ≠ r → (s.writeReg r w).readReg r' = s.readReg r') ∧
      s.writeReg r w = { s with regs := (s.writeReg r w).regs }

/-- R32: the reserved slot, and the slots of an absent search, read 0 and ignore writes. -/
def Obligations.ReservedSlotsReadZero : Prop :=
  ∀ (s : State) (r : Reg) (w : Word), r = .reserved ∨ s.tie.pllPresent = false ∧ r ∈ pllRegs →
    s.readReg r = 0 ∧ s.writeReg r w = s

/-- R29 to R31: host writes to the read-only registers are ignored, and whole machine: a step that changes a result register
is the engine step of a PLLSYN that ends without an error, or reset. -/
def Obligations.ResultRegistersOnlyByPllsyn : Prop :=
  (∀ (s : State) (r : Reg) (w : Word), r ∈ readOnlyRegs → s.writeReg r w = s) ∧
    ∀ s t : State, step s = .next t → ¬ SameResult s t →
      ((∃ q, s.turn = .engine q) ∧ s.latched.cmd = 0x00000030 ∧ s.tie.pllPresent = true ∧ t.status = endedOk s) ∨
        ∃ rest, s.host = .reset :: rest

/-! ### Reset and hazards (70_reset_and_hazards.md) -/

/-- 10_state.md R36: after reset every slot of the window reads 0 and `L` is all zero. -/
def Obligations.ResetZeroesRegisters : Prop :=
  ∀ tie : TieOffs, (∀ r, (State.resetOf tie).readReg r = 0) ∧ (State.resetOf tie).regs = .zero ∧
    (State.resetOf tie).latched =
      { cmd := 0, srcAddr := 0, dstAddr := 0, width := 0, height := 0, srcPitch := 0, targetClk := 0,
        baseTotal := 0 } ∧
    (State.resetOf tie).status.busy = false

/-- R200 to R202: reset from any state. The registers and `L` are zero and the tie-offs are as they were; memory is
unchanged, but for the written set of a command in flight, each byte of which holds a free value of its own (the counter
and the reach of that set are the model's, log entries 7 and 8). -/
def Obligations.ResetAbortsTheCommand : Prop :=
  ∀ s : State, s.mem.Wf →
    ∃ t, State.hostStep .reset s = .next t ∧ (∀ r, t.readReg r = 0) ∧ t.regs = .zero ∧ t.latched = .zero ∧
      t.status = { busy := false, done := false, err := false, ovr := false, errCode := .none } ∧ t.tie = s.tie ∧
      (s.inFlight = none → t.mem = s.mem) ∧
      ∀ c, s.inFlight = some c →
        (∀ a, ¬ Written c.dst (c.bpp * c.width * c.height) a → t.mem.read a = s.mem.read a) ∧
          ∃ number : Nat → Nat,
            (∀ a, Written c.dst (c.bpp * c.width * c.height) a → a < 2 ^ 32 →
              s.draws ≤ number a ∧ number a < t.draws ∧ t.mem.read a = Config.freeByte (number a)) ∧
              ∀ a b, Written c.dst (c.bpp * c.width * c.height) a → Written c.dst (c.bpp * c.width * c.height) b →
                a < 2 ^ 32 → b < 2 ^ 32 → number a = number b → a = b

/-- 00_scope.md R17 and R203: the engine can be given the turn exactly while BUSY, and right after reset it is not BUSY. The
model's choice are these: which of two enabled agents moves (the schedule, log entry 6); that a step with neither enabled
answers the same state (log entry 6); that the host is enabled exactly while its list of accesses is not empty, and that the
list is empty right after reset (log entry 10). -/
def Obligations.AgentsMoveOnlyWhenEnabled : Prop :=
  (∀ s : State, s.status.busy = true ↔ ∃ q r, State.turn { s with sched := q } = .engine r) ∧
    (∀ s : State, s.host ≠ [] ↔ ∃ q op rest r, State.turn { s with sched := q } = .host op rest r) ∧
    (∀ (s : State) (q : List Agent), s.turn = .engine q → s.status.busy = true) ∧
    (∀ s : State, s.status.busy = false → s.host = [] → step s = .next s) ∧
    ∀ tie : TieOffs, (State.resetOf tie).status.busy = false ∧ (State.resetOf tie).host = []

/-- R205, and 93_implementation_defined.md U4: while a conversion is in flight the host's writes to its source span, in which
its source bytes lie, and to its window are refused, its reads of the window return any value, and its other memory accesses
go through (that the operands alone decide, whatever the checks would say, and the counter, are the model's, log entries 7
and 9). -/
def Obligations.HostLeavesOwnedBuffers : Prop :=
  ∀ (s : State) (i : Instr) (c : Conversion) (a : Nat) (v : Byte), s.status.busy = true →
    decode s.tie.pllPresent s.latched.cmd = .ok i → conversionOf i s.latched = some c → a < 2 ^ 32 →
    let inWindow := c.dst ≤ a ∧ a < c.dst + up8 (c.bpp * c.width * c.height)
    let inSpan := c.src ≤ a ∧ a < c.src + ((c.height - 1) * c.pitch + 4 * c.width)
    ((∃ y < c.height, ∃ x < c.width, ∃ j < 4, a = c.src + y * c.pitch + 4 * x + j) → inSpan) ∧
      (inWindow ∨ inSpan → State.hostStep (.memWrite a v) s = .refused .ownedBuffer) ∧
      (¬ (inWindow ∨ inSpan) → State.hostStep (.memWrite a v) s = .next { s with mem := s.mem.write a v }) ∧
      (inWindow → State.hostStep (.memRead a) s = .next
        { s with seen := .byte a (Config.freeByte s.draws) :: s.seen, draws := s.draws + 1 }) ∧
      (¬ inWindow → State.hostStep (.memRead a) s = .next { s with seen := .byte a (s.mem.read a) :: s.seen })

/-- With no conversion in flight the host reads and writes all of memory, and there is none past it (20_memory.md R50; that
an access past it faults is the model's, log entry 11). -/
def Obligations.HostMemoryWhenIdle : Prop :=
  ∀ (s : State) (a : Nat) (v : Byte), s.inFlight = none →
    (a < 2 ^ 32 → State.hostStep (.memWrite a v) s = .next { s with mem := s.mem.write a v } ∧
      State.hostStep (.memRead a) s = .next { s with seen := .byte a (s.mem.read a) :: s.seen }) ∧
      (2 ^ 32 ≤ a → State.hostStep (.memWrite a v) s = .fault .noSuchAddress ∧
        State.hostStep (.memRead a) s = .fault .noSuchAddress)

/-- 30_encoding.md R78: `wait` reads STATUS until bit 0 reads 0 (one read a step, log entry 13). -/
def Obligations.WaitPollsStatus : Prop :=
  ∀ s : State, ∃ t, State.hostStep .wait s = .next t ∧
    t = { s with seen := .reg 4 s.status.word :: s.seen, host := t.host } ∧
    (s.status.word.getLsbD 0 = true → t.host = .wait :: s.host) ∧
    (s.status.word.getLsbD 0 = false → t.host = s.host)

/-- R201: no step changes a tie-off. -/
def Obligations.TieOffsNeverChange : Prop := ∀ s t : State, step s = .next t → t.tie = s.tie

/-! ### The invariant -/

/-- The reset state meets the model's invariant, on every build that R10 admits, and on the build of `State.reset`. That memory
lists nothing and that this is a canonical form (log entries 1 and 2), and the parameters of `State.reset` (log entry 4), are
the model's choice; the registers' reset values are R36's. -/
def Obligations.ResetMeetsInvariant : Prop :=
  (∀ tie : TieOffs, tie.pll.Wf → (State.resetOf tie).Inv) ∧ State.reset.Inv

/-- Every step keeps the invariant: canonical memory (the model's, log entries 1 and 2), the legal values of STATUS
(10_state.md R24), the command word of
`L` (R35), legal results (R29 to R31), silence of an absent search (R32), R10's constraints. -/
def Obligations.StepKeepsInvariant : Prop := ∀ s t : State, s.Inv → step s = .next t → t.Inv
end

