-- ==== Sys2Proof/Laws/Memory.lean ====
section
/-! SUPPORT. The laws of memory: a read after a write, the canonical form and what it buys, and the two ways a command
writes many bytes. -/

namespace Sys2Proof.Machine

theorem Memory.read_unlisted {m : Memory} {a : Nat} (h : ∀ c ∈ m, a ≠ c.1) : m.read a = Memory.unlisted := by
  induction m with
  | nil => rfl
  | cons c m ih =>
    obtain ⟨k, v⟩ := c
    have hk : k ≠ a := fun e => h (k, v) (by simp) e.symm
    simp only [Memory.read, hk, if_false]
    exact ih fun c hc => h c (by simp [hc])

theorem Memory.read_write_other (m : Memory) {a b : Nat} (v : Byte) (h : b ≠ a) :
    (m.write a v).read b = m.read b := by
  induction m with
  | nil =>
    unfold Memory.write
    split
    · rfl
    · simp [Memory.read, h.symm]
  | cons c m ih =>
    obtain ⟨k, u⟩ := c
    unfold Memory.write
    split
    · split
      · rfl
      · simp [Memory.read, h.symm]
    · split
      next hk =>
        subst hk
        split <;> simp [Memory.read, h.symm]
      next hk => simp only [Memory.read, ih]

theorem Memory.wf_tail {c : Host.Cell} {m : Memory} (h : Memory.Wf (c :: m)) : Memory.Wf m :=
  ⟨h.1.tail, fun d hd => h.2 d (by simp [hd])⟩

theorem Memory.wf_head_lt {c : Host.Cell} {m : Memory} (h : Memory.Wf (c :: m)) {d : Host.Cell} (hd : d ∈ m) :
    c.1 < d.1 := (List.pairwise_cons.1 h.1).1 d hd

theorem Memory.read_write_same {m : Memory} (h : m.Wf) (a : Nat) (v : Byte) : (m.write a v).read a = v := by
  induction m with
  | nil =>
    unfold Memory.write
    split
    next hv => simp [Memory.read, hv]
    next => simp [Memory.read]
  | cons c m ih =>
    obtain ⟨k, u⟩ := c
    unfold Memory.write
    split
    next hlt =>
      split
      next hv =>
        rw [hv]
        refine Memory.read_unlisted fun d hd => ?_
        rcases List.mem_cons.1 hd with rfl | hd
        · exact hlt.ne
        · have := Memory.wf_head_lt h hd
          simp only at this
          omega
      next => simp [Memory.read]
    next hge =>
      split
      next hk =>
        subst hk
        split
        next hv =>
          rw [hv]
          refine Memory.read_unlisted fun d hd => ?_
          exact (Memory.wf_head_lt h hd).ne
        next => simp [Memory.read]
      next hk =>
        simp only [Memory.read, Ne.symm hk, if_false]
        exact ih (Memory.wf_tail h)

theorem Memory.mem_write {m : Memory} {a : Nat} {v : Byte} {c : Host.Cell} (h : c ∈ m.write a v) :
    c ∈ m ∨ (c = (a, v) ∧ v ≠ Memory.unlisted) := by
  induction m with
  | nil =>
    unfold Memory.write at h
    split at h
    · simp at h
    · exact .inr ⟨by simpa using h, ‹_›⟩
  | cons d m ih =>
    obtain ⟨k, u⟩ := d
    unfold Memory.write at h
    split at h
    · split at h
      · exact .inl h
      · rcases List.mem_cons.1 h with h | h
        · exact .inr ⟨h, ‹_›⟩
        · exact .inl h
    · split at h
      · split at h
        · exact .inl (by simp [h])
        · rcases List.mem_cons.1 h with h | h
          · exact .inr ⟨h, ‹_›⟩
          · exact .inl (by simp [h])
      · rcases List.mem_cons.1 h with h | h
        · exact .inl (by simp [h])
        · rcases ih h with h | h
          · exact .inl (by simp [h])
          · exact .inr h

/-- A write inside the memory space keeps the canonical form. -/
theorem Memory.write_wf {m : Memory} (h : m.Wf) {a : Nat} (ha : a < Config.memBytes) (v : Byte) :
    (m.write a v).Wf := by
  refine ⟨?_, fun c hc => ?_⟩
  · induction m with
    | nil =>
      unfold Memory.write
      split <;> simp
    | cons d m ih =>
      obtain ⟨k, u⟩ := d
      have hp := List.pairwise_cons.1 h.1
      unfold Memory.write
      split
      next hlt =>
        split
        · exact h.1
        · refine List.pairwise_cons.2 ⟨fun c hc => ?_, h.1⟩
          rcases List.mem_cons.1 hc with rfl | hc
          · exact hlt
          · exact lt_trans hlt (hp.1 c hc)
      next =>
        split
        next hk =>
          subst hk
          split
          · exact hp.2
          · exact List.pairwise_cons.2 ⟨hp.1, hp.2⟩
        next =>
          refine List.pairwise_cons.2 ⟨fun c hc => ?_, ih (Memory.wf_tail h)⟩
          rcases Memory.mem_write hc with hc | ⟨rfl, -⟩
          · exact hp.1 c hc
          · show k < a
            omega
  · rcases Memory.mem_write hc with hc | ⟨rfl, hv⟩
    · exact h.2 c hc
    · exact ⟨ha, hv⟩

/-- In canonical form, memories that read alike are equal. -/
theorem Memory.ext_of_wf {m n : Memory} (hm : m.Wf) (hn : n.Wf) (h : ∀ a, m.read a = n.read a) : m = n := by
  induction m generalizing n with
  | nil =>
    cases n with
    | nil => rfl
    | cons d n =>
      have := h d.1
      simp only [Memory.read, if_true] at this
      exact absurd this.symm (hn.2 d (by simp)).2
  | cons c m ih =>
    obtain ⟨k, u⟩ := c
    cases n with
    | nil =>
      have := h k
      simp only [Memory.read, if_true] at this
      exact absurd this (hm.2 (k, u) (by simp)).2
    | cons d n =>
      obtain ⟨l, v⟩ := d
      have hmr : ∀ a, a ≤ k → Memory.read m a = Memory.unlisted := fun a ha =>
        Memory.read_unlisted fun c hc => by
          have : k < c.1 := Memory.wf_head_lt hm hc
          omega
      have hnr : ∀ a, a ≤ l → Memory.read n a = Memory.unlisted := fun a ha =>
        Memory.read_unlisted fun c hc => by
          have : l < c.1 := Memory.wf_head_lt hn hc
          omega
      have hu := (hm.2 (k, u) (by simp)).2
      have hv := (hn.2 (l, v) (by simp)).2
      have hkl : k = l := by
        rcases lt_trichotomy k l with hlt | heq | hlt
        · have := h k
          simp only [Memory.read, if_true, hlt.ne', if_false] at this
          rw [hnr k hlt.le] at this
          exact absurd this hu
        · exact heq
        · have := h l
          simp only [Memory.read, if_true, hlt.ne', if_false] at this
          rw [hmr l hlt.le] at this
          exact absurd this.symm hv
      subst hkl
      have huv : u = v := by simpa [Memory.read] using h k
      subst huv
      congr 1
      refine ih (Memory.wf_tail hm) (Memory.wf_tail hn) fun a => ?_
      by_cases ha : a = k
      · subst ha
        rw [hmr _ le_rfl, hnr _ le_rfl]
      · simpa [Memory.read, Ne.symm ha] using h a

/-! ### Free bytes -/

theorem Memory.read_writeFree_other {as : List Nat} {n : Nat} {m : Memory} {b : Nat} (h : b ∉ as) :
    (Memory.writeFree as n m).read b = m.read b := by
  induction as generalizing n m with
  | nil => rfl
  | cons a as ih =>
    simp only [List.mem_cons, not_or] at h
    rw [Memory.writeFree, ih h.2, Memory.read_write_other _ _ h.1]

theorem Memory.writeFree_wf {as : List Nat} {n : Nat} {m : Memory} (h : m.Wf)
    (ha : ∀ a ∈ as, a < Config.memBytes) : (Memory.writeFree as n m).Wf := by
  induction as generalizing n m with
  | nil => exact h
  | cons a as ih =>
    exact ih (Memory.write_wf h (ha a (by simp)) _) fun b hb => ha b (by simp [hb])

/-- Each freed byte holds the draw of its own number. -/
theorem Memory.read_writeFree {as : List Nat} {n : Nat} {m : Memory} (h : m.Wf)
    (ha : ∀ a ∈ as, a < Config.memBytes) (hn : as.Nodup) {i : Nat} (hi : i < as.length) :
    (Memory.writeFree as n m).read as[i] = Config.freeByte (n + i) := by
  induction as generalizing n m i with
  | nil => simp at hi
  | cons a as ih =>
    have hw := Memory.write_wf h (ha a (by simp)) (Config.freeByte n)
    obtain ⟨hna, hn⟩ := List.nodup_cons.1 hn
    rw [Memory.writeFree]
    cases i with
    | zero =>
      rw [List.getElem_cons_zero, Memory.read_writeFree_other hna, Memory.read_write_same h, Nat.add_zero]
    | succ i =>
      rw [List.getElem_cons_succ, ih hw (fun b hb => ha b (by simp [hb])) hn (by simpa using hi)]
      congr 1
      omega

/-! ### Swizzled placement -/

theorem swizzle_swizzle (k : Nat) : swizzle (swizzle k) = k := by
  simp [swizzle]

theorem swizzle_injective {j k : Nat} (h : swizzle j = swizzle k) : j = k := by
  rw [← swizzle_swizzle j, h, swizzle_swizzle]

theorem swizzle_add_of_dvd {k : Nat} (q : Nat) : swizzle (8 * q + k) = 8 * q + swizzle k := by
  unfold swizzle Config.swz
  apply Nat.eq_of_testBit_eq
  intro i
  have h8 : 8 * q + k = 2 ^ 3 * (q + k / 8) + k % 8 := by omega
  have hx : (k ^^^ 4) / 8 = k / 8 := by
    have := Nat.xor_div_two_pow (a := k) (b := 4) (n := 3)
    simpa using this
  have hm : (k ^^^ 4) % 8 = (k % 8) ^^^ 4 := by
    have := Nat.xor_mod_two_pow (a := k) (b := 4) (n := 3)
    simpa using this
  have h8' : 8 * q + (k ^^^ 4) = 2 ^ 3 * (q + k / 8) + ((k % 8) ^^^ 4) := by omega
  have hlt : (k % 8) ^^^ 4 < 2 ^ 3 := Nat.xor_lt_two_pow (by omega) (by omega)
  rw [h8', Nat.testBit_two_pow_mul_add _ hlt, Nat.testBit_xor, h8,
    Nat.testBit_two_pow_mul_add _ (show k % 8 < 2 ^ 3 by omega), Nat.testBit_xor]
  split
  · rfl
  · rename_i hi
    have : Nat.testBit 4 i = false := by
      apply Nat.testBit_lt_two_pow
      calc 4 < 2 ^ 3 := by norm_num
        _ ≤ 2 ^ i := Nat.pow_le_pow_right (by norm_num) (by omega)
    simp [this]

/-- The swizzle moves a byte within its group of eight. -/
theorem swizzle_div (k : Nat) : swizzle k / 8 = k / 8 := by
  have := Nat.xor_div_two_pow (a := k) (b := 4) (n := 3)
  simpa [swizzle, Config.swz] using this

theorem swizzle_lt_ceil8 {k n : Nat} (h : k < n) : swizzle k < ceil8 n := by
  have := swizzle_div k
  unfold ceil8
  omega

theorem Memory.read_place_other {d k b : Nat} {bs : List Byte} {m : Memory}
    (h : ∀ j, j < bs.length → b ≠ d + swizzle (k + j)) : (Memory.place d k bs m).read b = m.read b := by
  induction bs generalizing k m with
  | nil => rfl
  | cons x bs ih =>
    rw [Memory.place, ih fun j hj => ?_, Memory.read_write_other]
    · simpa using h 0 (by simp)
    · have := h (j + 1) (by simpa using hj)
      rwa [show k + (j + 1) = k + 1 + j by omega] at this

theorem Memory.place_wf {d k : Nat} {bs : List Byte} {m : Memory} (h : m.Wf)
    (hb : ∀ j, j < bs.length → d + swizzle (k + j) < Config.memBytes) : (Memory.place d k bs m).Wf := by
  induction bs generalizing k m with
  | nil => exact h
  | cons x bs ih =>
    refine ih (Memory.write_wf h (by simpa using hb 0 (by simp)) x) fun j hj => ?_
    have := hb (j + 1) (by simpa using hj)
    rwa [show k + (j + 1) = k + 1 + j by omega] at this

/-- Byte `k + j` of the stream is read back at its swizzled offset (40_convert.md R105). -/
theorem Memory.read_place {d k : Nat} {bs : List Byte} {m : Memory} (h : m.Wf)
    (hb : ∀ j, j < bs.length → d + swizzle (k + j) < Config.memBytes) {j : Nat} (hj : j < bs.length) :
    (Memory.place d k bs m).read (d + swizzle (k + j)) = bs[j] := by
  induction bs generalizing k m j with
  | nil => simp at hj
  | cons x bs ih =>
    have hx : d + swizzle k < Config.memBytes := by simpa using hb 0 (by simp)
    have hb' : ∀ i, i < bs.length → d + swizzle (k + 1 + i) < Config.memBytes := fun i hi => by
      have := hb (i + 1) (by simpa using hi)
      rwa [show k + (i + 1) = k + 1 + i by omega] at this
    cases j with
    | zero =>
      simp only [Memory.place, Nat.add_zero, List.getElem_cons_zero]
      rw [Memory.read_place_other, Memory.read_write_same h]
      intro i _ hc
      have := swizzle_injective (Nat.add_left_cancel hc)
      omega
    | succ j =>
      simp only [Memory.place, List.getElem_cons_succ]
      rw [show k + (j + 1) = k + 1 + j by omega]
      exact ih (Memory.write_wf h hx x) hb' (by simpa using hj)

theorem Memory.place_append (d k : Nat) (bs cs : List Byte) (m : Memory) :
    Memory.place d k (bs ++ cs) m = Memory.place d (k + bs.length) cs (Memory.place d k bs m) := by
  induction bs generalizing k m with
  | nil => rfl
  | cons b bs ih =>
    simp only [List.cons_append, Memory.place, ih, List.length_cons]
    rw [show k + 1 + bs.length = k + (bs.length + 1) by omega]

end Sys2Proof.Machine
end

