-- ==== Sys2Proof/Laws/State.lean ====
section
/-! SUPPORT. One lemma per field for each shared update of State and of STATUS, so that no later proof unfolds a
record update. -/

namespace Sys2Proof.Machine

variable (s : State) (t : Status)

/-! ### `State.complete` -/

@[simp] theorem State.complete_regs : s.complete.regs = s.regs := rfl
@[simp] theorem State.complete_status : s.complete.status = s.status.completed := rfl
@[simp] theorem State.complete_latched : s.complete.latched = s.latched := rfl
@[simp] theorem State.complete_mem : s.complete.mem = s.mem := rfl
@[simp] theorem State.complete_tie : s.complete.tie = s.tie := rfl
@[simp] theorem State.complete_host : s.complete.host = s.host := rfl
@[simp] theorem State.complete_sched : s.complete.sched = s.sched := rfl
@[simp] theorem State.complete_seen : s.complete.seen = s.seen := rfl
@[simp] theorem State.complete_draws : s.complete.draws = s.draws := rfl

/-! ### `State.raiseError` -/

@[simp] theorem State.raiseError_regs (c : ErrCode) : (s.raiseError c).regs = s.regs := rfl
@[simp] theorem State.raiseError_status (c : ErrCode) : (s.raiseError c).status = s.status.failed c := rfl
@[simp] theorem State.raiseError_latched (c : ErrCode) : (s.raiseError c).latched = s.latched := rfl
@[simp] theorem State.raiseError_mem (c : ErrCode) : (s.raiseError c).mem = s.mem := rfl
@[simp] theorem State.raiseError_tie (c : ErrCode) : (s.raiseError c).tie = s.tie := rfl
@[simp] theorem State.raiseError_host (c : ErrCode) : (s.raiseError c).host = s.host := rfl
@[simp] theorem State.raiseError_sched (c : ErrCode) : (s.raiseError c).sched = s.sched := rfl
@[simp] theorem State.raiseError_seen (c : ErrCode) : (s.raiseError c).seen = s.seen := rfl
@[simp] theorem State.raiseError_draws (c : ErrCode) : (s.raiseError c).draws = s.draws := rfl

/-! ### `State.freeBytes` -/

@[simp] theorem State.freeBytes_regs (as : List Nat) : (s.freeBytes as).regs = s.regs := rfl
@[simp] theorem State.freeBytes_status (as : List Nat) : (s.freeBytes as).status = s.status := rfl
@[simp] theorem State.freeBytes_latched (as : List Nat) : (s.freeBytes as).latched = s.latched := rfl
@[simp] theorem State.freeBytes_mem (as : List Nat) : (s.freeBytes as).mem = Memory.writeFree as s.draws s.mem := rfl
@[simp] theorem State.freeBytes_tie (as : List Nat) : (s.freeBytes as).tie = s.tie := rfl
@[simp] theorem State.freeBytes_host (as : List Nat) : (s.freeBytes as).host = s.host := rfl
@[simp] theorem State.freeBytes_sched (as : List Nat) : (s.freeBytes as).sched = s.sched := rfl
@[simp] theorem State.freeBytes_seen (as : List Nat) : (s.freeBytes as).seen = s.seen := rfl
@[simp] theorem State.freeBytes_draws (as : List Nat) : (s.freeBytes as).draws = s.draws + as.length := rfl

/-! ### `State.busError` -/

@[simp] theorem State.busError_regs (as : List Nat) : (s.busError as).regs = s.regs := rfl
@[simp] theorem State.busError_status (as : List Nat) : (s.busError as).status = s.status.failed .bus := rfl
@[simp] theorem State.busError_latched (as : List Nat) : (s.busError as).latched = s.latched := rfl
@[simp] theorem State.busError_mem (as : List Nat) : (s.busError as).mem = Memory.writeFree as s.draws s.mem := rfl
@[simp] theorem State.busError_tie (as : List Nat) : (s.busError as).tie = s.tie := rfl
@[simp] theorem State.busError_host (as : List Nat) : (s.busError as).host = s.host := rfl
@[simp] theorem State.busError_sched (as : List Nat) : (s.busError as).sched = s.sched := rfl
@[simp] theorem State.busError_seen (as : List Nat) : (s.busError as).seen = s.seen := rfl
@[simp] theorem State.busError_draws (as : List Nat) : (s.busError as).draws = s.draws + as.length := rfl

/-! ### `State.observe` -/

@[simp] theorem State.observe_regs (o : Observation) : (s.observe o).regs = s.regs := rfl
@[simp] theorem State.observe_status (o : Observation) : (s.observe o).status = s.status := rfl
@[simp] theorem State.observe_latched (o : Observation) : (s.observe o).latched = s.latched := rfl
@[simp] theorem State.observe_mem (o : Observation) : (s.observe o).mem = s.mem := rfl
@[simp] theorem State.observe_tie (o : Observation) : (s.observe o).tie = s.tie := rfl
@[simp] theorem State.observe_host (o : Observation) : (s.observe o).host = s.host := rfl
@[simp] theorem State.observe_sched (o : Observation) : (s.observe o).sched = s.sched := rfl
@[simp] theorem State.observe_seen (o : Observation) : (s.observe o).seen = o :: s.seen := rfl
@[simp] theorem State.observe_draws (o : Observation) : (s.observe o).draws = s.draws := rfl

/-! ### `State.issue` -/

@[simp] theorem State.issue_regs (w : Word) : (s.issue w).regs = { s.regs with cmd := w } := rfl
@[simp] theorem State.issue_status (w : Word) : (s.issue w).status = s.status.issued := rfl
@[simp] theorem State.issue_latched (w : Word) : (s.issue w).latched = s.latch w := rfl
@[simp] theorem State.issue_mem (w : Word) : (s.issue w).mem = s.mem := rfl
@[simp] theorem State.issue_tie (w : Word) : (s.issue w).tie = s.tie := rfl
@[simp] theorem State.issue_host (w : Word) : (s.issue w).host = s.host := rfl
@[simp] theorem State.issue_sched (w : Word) : (s.issue w).sched = s.sched := rfl
@[simp] theorem State.issue_seen (w : Word) : (s.issue w).seen = s.seen := rfl
@[simp] theorem State.issue_draws (w : Word) : (s.issue w).draws = s.draws := rfl

/-! ### `State.storeStream` -/

@[simp] theorem State.storeStream_regs (f : Word → List Byte) (c : Conversion) : (s.storeStream f c).regs = s.regs := rfl
@[simp] theorem State.storeStream_status (f : Word → List Byte) (c : Conversion) : (s.storeStream f c).status = s.status := rfl
@[simp] theorem State.storeStream_latched (f : Word → List Byte) (c : Conversion) : (s.storeStream f c).latched = s.latched := rfl
@[simp] theorem State.storeStream_mem (f : Word → List Byte) (c : Conversion) : (s.storeStream f c).mem = Memory.place c.dst 0 (c.stream s.tie.conv.srcOrder f s.mem) s.mem := rfl
@[simp] theorem State.storeStream_tie (f : Word → List Byte) (c : Conversion) : (s.storeStream f c).tie = s.tie := rfl
@[simp] theorem State.storeStream_host (f : Word → List Byte) (c : Conversion) : (s.storeStream f c).host = s.host := rfl
@[simp] theorem State.storeStream_sched (f : Word → List Byte) (c : Conversion) : (s.storeStream f c).sched = s.sched := rfl
@[simp] theorem State.storeStream_seen (f : Word → List Byte) (c : Conversion) : (s.storeStream f c).seen = s.seen := rfl
@[simp] theorem State.storeStream_draws (f : Word → List Byte) (c : Conversion) : (s.storeStream f c).draws = s.draws := rfl

/-! ### `State.writeResult` -/

@[simp] theorem State.writeResult_status (r : Accepted) : (s.writeResult r).status = s.status := rfl
@[simp] theorem State.writeResult_latched (r : Accepted) : (s.writeResult r).latched = s.latched := rfl
@[simp] theorem State.writeResult_mem (r : Accepted) : (s.writeResult r).mem = s.mem := rfl
@[simp] theorem State.writeResult_tie (r : Accepted) : (s.writeResult r).tie = s.tie := rfl
@[simp] theorem State.writeResult_host (r : Accepted) : (s.writeResult r).host = s.host := rfl
@[simp] theorem State.writeResult_sched (r : Accepted) : (s.writeResult r).sched = s.sched := rfl
@[simp] theorem State.writeResult_seen (r : Accepted) : (s.writeResult r).seen = s.seen := rfl
@[simp] theorem State.writeResult_draws (r : Accepted) : (s.writeResult r).draws = s.draws := rfl

/-! ### `State.resetNow` -/

@[simp] theorem State.resetNow_regs : s.resetNow.regs = .zero := rfl
@[simp] theorem State.resetNow_status : s.resetNow.status = .zero := rfl
@[simp] theorem State.resetNow_latched : s.resetNow.latched = .zero := rfl
@[simp] theorem State.resetNow_mem : s.resetNow.mem = Memory.writeFree s.abortedBytes s.draws s.mem := rfl
@[simp] theorem State.resetNow_tie : s.resetNow.tie = s.tie := rfl
@[simp] theorem State.resetNow_host : s.resetNow.host = s.host := rfl
@[simp] theorem State.resetNow_sched : s.resetNow.sched = s.sched := rfl
@[simp] theorem State.resetNow_seen : s.resetNow.seen = s.seen := rfl
@[simp] theorem State.resetNow_draws : s.resetNow.draws = s.draws + s.abortedBytes.length := rfl

@[simp] theorem State.writeResult_regs_cmd (r : Accepted) : (s.writeResult r).regs.cmd = s.regs.cmd := rfl
@[simp] theorem State.writeResult_regs_srcAddr (r : Accepted) : (s.writeResult r).regs.srcAddr = s.regs.srcAddr := rfl
@[simp] theorem State.writeResult_regs_dstAddr (r : Accepted) : (s.writeResult r).regs.dstAddr = s.regs.dstAddr := rfl
@[simp] theorem State.writeResult_regs_width (r : Accepted) : (s.writeResult r).regs.width = s.regs.width := rfl
@[simp] theorem State.writeResult_regs_height (r : Accepted) : (s.writeResult r).regs.height = s.regs.height := rfl
@[simp] theorem State.writeResult_regs_srcPitch (r : Accepted) : (s.writeResult r).regs.srcPitch = s.regs.srcPitch := rfl
@[simp] theorem State.writeResult_regs_targetClk (r : Accepted) : (s.writeResult r).regs.targetClk = s.regs.targetClk := rfl
@[simp] theorem State.writeResult_regs_baseTotal (r : Accepted) : (s.writeResult r).regs.baseTotal = s.regs.baseTotal := rfl
@[simp] theorem State.writeResult_regs_pllCfg (r : Accepted) :
    (s.writeResult r).regs.pllCfg = cfgWord (band s.tie.pll r.best.vco) r.best.p r.best.m := rfl
@[simp] theorem State.writeResult_regs_pllDiv (r : Accepted) :
    (s.writeResult r).regs.pllDiv = BitVec.ofNat 32 r.best.dv := rfl
@[simp] theorem State.writeResult_regs_pllClk (r : Accepted) :
    (s.writeResult r).regs.pllClk = BitVec.ofNat 32 (r.best.vco / r.best.dv) := rfl
@[simp] theorem State.writeResult_regs_pllAdj (r : Accepted) :
    (s.writeResult r).regs.pllAdj = BitVec.ofInt 32 r.adj := rfl
@[simp] theorem State.writeResult_regs_pllTotal (r : Accepted) :
    (s.writeResult r).regs.pllTotal = BitVec.ofNat 32 r.total := rfl
@[simp] theorem State.writeResult_regs_pllPpm (r : Accepted) :
    (s.writeResult r).regs.pllPpm = BitVec.ofNat 32 r.best.err := rfl

/-! ### STATUS -/

@[simp] theorem Status.completed_busy : t.completed.busy = false := rfl
@[simp] theorem Status.completed_done : t.completed.done = true := rfl
@[simp] theorem Status.completed_err : t.completed.err = t.err := rfl
@[simp] theorem Status.completed_ovr : t.completed.ovr = t.ovr := rfl
@[simp] theorem Status.completed_errCode : t.completed.errCode = t.errCode := rfl
@[simp] theorem Status.failed_busy (c : ErrCode) : (t.failed c).busy = false := rfl
@[simp] theorem Status.failed_done (c : ErrCode) : (t.failed c).done = true := rfl
@[simp] theorem Status.failed_err (c : ErrCode) : (t.failed c).err = true := rfl
@[simp] theorem Status.failed_ovr (c : ErrCode) : (t.failed c).ovr = t.ovr := rfl
@[simp] theorem Status.failed_errCode (c : ErrCode) : (t.failed c).errCode = c := rfl
@[simp] theorem Status.issued_busy : t.issued.busy = true := rfl
@[simp] theorem Status.issued_done : t.issued.done = false := rfl
@[simp] theorem Status.issued_err : t.issued.err = false := rfl
@[simp] theorem Status.issued_ovr : t.issued.ovr = t.ovr := rfl
@[simp] theorem Status.issued_errCode : t.issued.errCode = .none := rfl
@[simp] theorem Status.overrun_busy : t.overrun.busy = t.busy := rfl
@[simp] theorem Status.overrun_done : t.overrun.done = t.done := rfl
@[simp] theorem Status.overrun_err : t.overrun.err = t.err := rfl
@[simp] theorem Status.overrun_ovr : t.overrun.ovr = true := rfl
@[simp] theorem Status.overrun_errCode : t.overrun.errCode = t.errCode := rfl
@[simp] theorem Status.clear_busy (w : Word) : (t.clear w).busy = t.busy := rfl

end Sys2Proof.Machine
end

