-- ==== Sys2Proof/Laws/Convert.lean ====
section
/-! SUPPORT. What a conversion's regions are, what its stream is, and the three ways `State.convert` ends. -/

namespace Sys2Proof.Machine

/-! ### Lists cut into pieces of one length -/

theorem length_flatMap_const {α β : Type} {f : α → List β} {n : Nat} (h : ∀ a, (f a).length = n) (l : List α) :
    (l.flatMap f).length = n * l.length := by
  induction l with
  | nil => simp
  | cons a l ih => simp only [List.flatMap_cons, List.length_append, h, ih, List.length_cons]; ring

/-- Element `n * i + t` of pieces of length `n` laid end to end is element `t` of piece `i`. -/
theorem getElem?_flatMap_const {α β : Type} {f : α → List β} {n : Nat} (h : ∀ a, (f a).length = n) {l : List α}
    {i t : Nat} {a : α} (ha : l[i]? = some a) (ht : t < n) : (l.flatMap f)[n * i + t]? = (f a)[t]? := by
  induction l generalizing i with
  | nil => simp at ha
  | cons b l ih =>
    rw [List.flatMap_cons]
    cases i with
    | zero =>
      obtain rfl : b = a := by simpa using ha
      rw [Nat.mul_zero, Nat.zero_add, List.getElem?_append_left (by rw [h]; exact ht)]
    | succ i =>
      rw [List.getElem?_append_right (by rw [h, Nat.mul_succ]; omega), h,
        show n * (i + 1) + t - n = n * i + t by rw [Nat.mul_succ]; omega]
      exact ih (by simpa using ha)

/-! ### Regions -/

variable (c : Conversion)

theorem Conversion.length_lineAddrs (y : Nat) : (c.lineAddrs y).length = c.width := by simp [Conversion.lineAddrs]

theorem Conversion.length_pixelAddrs : c.pixelAddrs.length = c.width * c.height := by
  rw [Conversion.pixelAddrs, length_flatMap_const c.length_lineAddrs, List.length_range]

/-- Stream pixel `y*W + x` is pixel `(x, y)` (40_convert.md R109). -/
theorem Conversion.getElem?_pixelAddrs {x y : Nat} (hx : x < c.width) (hy : y < c.height) :
    c.pixelAddrs[c.width * y + x]? = some (c.src + y * c.pitch + 4 * x) := by
  rw [Conversion.pixelAddrs, getElem?_flatMap_const c.length_lineAddrs (a := y) (by simp [hy]) hx]
  simp [Conversion.lineAddrs, hx]

theorem Conversion.mem_pixelAddrs {a : Nat} :
    a ∈ c.pixelAddrs ↔ ∃ y < c.height, ∃ x < c.width, a = c.src + y * c.pitch + 4 * x := by
  simp [Conversion.pixelAddrs, Conversion.lineAddrs, eq_comm]

theorem Conversion.mem_srcBytes {a : Nat} :
    a ∈ c.srcBytes ↔ ∃ y < c.height, ∃ x < c.width, ∃ j < 4, a = c.src + y * c.pitch + 4 * x + j := by
  simp only [Conversion.srcBytes, List.mem_flatMap, Conversion.mem_pixelAddrs]
  constructor
  · rintro ⟨p, ⟨y, hy, x, hx, rfl⟩, hp⟩
    simp only [List.mem_cons, List.not_mem_nil, or_false] at hp
    rcases hp with rfl | rfl | rfl | rfl
    exacts [⟨y, hy, x, hx, 0, by omega, by omega⟩, ⟨y, hy, x, hx, 1, by omega, rfl⟩,
      ⟨y, hy, x, hx, 2, by omega, rfl⟩, ⟨y, hy, x, hx, 3, by omega, rfl⟩]
  · rintro ⟨y, hy, x, hx, j, hj, rfl⟩
    refine ⟨_, ⟨y, hy, x, hx, rfl⟩, ?_⟩
    have : j = 0 ∨ j = 1 ∨ j = 2 ∨ j = 3 := by omega
    rcases this with rfl | rfl | rfl | rfl <;> simp

theorem Conversion.mem_writtenSet {a : Nat} : a ∈ c.writtenSet ↔ ∃ k < c.streamLen, a = c.dst + swizzle k := by
  simp [Conversion.writtenSet, eq_comm]

theorem Conversion.length_writtenSet : c.writtenSet.length = c.streamLen := by simp [Conversion.writtenSet]

theorem Conversion.nodup_writtenSet : c.writtenSet.Nodup :=
  List.nodup_range.map fun _ _ h => swizzle_injective (Nat.add_left_cancel h)

/-- Address `k` of the written set is that of stream byte `k` (40_convert.md R106). -/
theorem Conversion.getElem_writtenSet {k : Nat} (hk : k < c.writtenSet.length) :
    c.writtenSet[k] = c.dst + swizzle k := by
  simp [Conversion.writtenSet]

theorem Conversion.inWindow_iff {a : Nat} : c.inWindow a = true ↔ c.dst ≤ a ∧ a < c.dst + c.windowLen := by
  simp [Conversion.inWindow]

theorem Conversion.inSourceSpan_iff {a : Nat} :
    c.inSourceSpan a = true ↔ c.src ≤ a ∧ a < c.src + c.srcSpan := by
  simp [Conversion.inSourceSpan]

/-- The written set lies in the window (40_convert.md R106). -/
theorem Conversion.mem_window_of_mem_writtenSet {a : Nat} (h : a ∈ c.writtenSet) :
    c.dst ≤ a ∧ a < c.dst + c.windowLen := by
  obtain ⟨k, hk, rfl⟩ := c.mem_writtenSet.1 h
  have := swizzle_lt_ceil8 hk
  unfold Conversion.windowLen
  omega

/-- Every source byte lies in the source span (40_convert.md R109). -/
theorem Conversion.mem_span_of_mem_srcBytes {a : Nat} (h : a ∈ c.srcBytes) : c.src ≤ a ∧ a < c.src + c.srcSpan := by
  obtain ⟨y, hy, x, hx, j, hj, rfl⟩ := c.mem_srcBytes.1 h
  have : y * c.pitch ≤ (c.height - 1) * c.pitch := Nat.mul_le_mul_right _ (by omega)
  unfold Conversion.srcSpan
  omega

theorem Conversion.checkLine_none : c.checkLine = none ↔ c.src % 4 = 0 ∧ c.dst % 8 = 0 ∧ c.checkRegions = none := by
  unfold Conversion.checkLine
  split
  · simp; omega
  · exact ⟨fun h => ⟨by omega, by omega, h⟩, fun h => h.2.2⟩

theorem Conversion.checkFrame_none :
    c.checkFrame = none ↔ (c.width ≠ 0 ∧ c.height ≠ 0 ∧ 4 * c.width ≤ c.pitch) ∧
      (c.src % 4 = 0 ∧ c.pitch % 4 = 0 ∧ c.dst % 8 = 0) ∧ c.checkRegions = none := by
  unfold Conversion.checkFrame
  split
  · simp; omega
  · split
    · simp; omega
    · constructor
      · exact fun h => ⟨by omega, by omega, h⟩
      · exact fun h => h.2.2

theorem Conversion.checkRegions_none :
    c.checkRegions = none ↔ (c.src + c.srcSpan ≤ 2 ^ 32 ∧ c.dst + c.windowLen ≤ 2 ^ 32) ∧
      ¬ (0 < c.srcSpan ∧ 0 < c.windowLen ∧ c.src < c.dst + c.windowLen ∧ c.dst < c.src + c.srcSpan) := by
  unfold Conversion.checkRegions overlaps Config.memBytes
  split
  · simp; omega
  · split
    next h => simp only [decide_eq_true_eq] at h; simp; omega
    next h => simp only [decide_eq_true_eq] at h; simp; omega

/-- A conversion whose regions passed the checks stays inside memory. -/
theorem Conversion.written_lt {k : Nat} (h : c.checkRegions = none) (hk : k < c.streamLen) :
    c.dst + swizzle k < Config.memBytes := by
  have h1 := (c.checkRegions_none.1 h).1.2
  have h2 := swizzle_lt_ceil8 hk
  unfold Conversion.windowLen at h1
  unfold Config.memBytes
  omega

/-- No written byte is a source byte once the regions passed the checks (40_convert.md R108, R209). -/
theorem Conversion.src_not_written {a k : Nat} (h : c.checkRegions = none) (ha : a ∈ c.srcBytes)
    (hk : k < c.streamLen) : a ≠ c.dst + swizzle k := by
  have h1 := (c.checkRegions_none.1 h).2
  have h2 := swizzle_lt_ceil8 hk
  have h3 := c.mem_span_of_mem_srcBytes ha
  unfold Conversion.windowLen at h1
  omega

/-! ### Streams -/

theorem length_stream16 (p : ConvParams) (w : Word) : (stream16 p w).length = 2 := by
  unfold stream16
  split <;> rfl

theorem length_stream24 (p : ConvParams) (w : Word) : (stream24 p w).length = 3 := by
  unfold stream24
  split <;> rfl

variable {c}

theorem Conversion.length_stream {f : Word → List Byte} (hf : ∀ p, (f p).length = c.bpp) (o : ByteOrder) (m : Memory) :
    (c.stream o f m).length = c.streamLen := by
  rw [Conversion.stream, length_flatMap_const (fun _ => hf _), c.length_pixelAddrs, Conversion.streamLen, Nat.mul_assoc]

/-- Stream byte `bpp*(y*W + x) + t` is byte `t` of pixel `(x, y)` (40_convert.md R103, R104, R109). -/
theorem Conversion.getElem?_stream {f : Word → List Byte} (hf : ∀ p, (f p).length = c.bpp) (o : ByteOrder) (m : Memory)
    {x y t : Nat} (hx : x < c.width) (hy : y < c.height) (ht : t < c.bpp) :
    (c.stream o f m)[c.bpp * (c.width * y + x) + t]? =
      (f (m.readWord o (c.src + y * c.pitch + 4 * x)))[t]? := by
  rw [Conversion.stream, getElem?_flatMap_const (fun _ => hf _) (c.getElem?_pixelAddrs hx hy) ht]

theorem Memory.readWord_congr {m n : Memory} {a : Nat} (o : ByteOrder)
    (h : ∀ j < 4, m.read (a + j) = n.read (a + j)) : m.readWord o a = n.readWord o a := by
  have h0 := h 0 (by omega)
  rw [Nat.add_zero] at h0
  simp only [Memory.readWord, h 1 (by omega), h 2 (by omega), h 3 (by omega), h0]

/-- A stream depends on memory only through the source bytes (40_convert.md R119). -/
theorem Conversion.stream_congr {m n : Memory} (o : ByteOrder) (f : Word → List Byte)
    (h : ∀ a ∈ c.srcBytes, m.read a = n.read a) : c.stream o f m = c.stream o f n := by
  rw [Conversion.stream, Conversion.stream, List.flatMap_def, List.flatMap_def]
  congr 1
  refine List.map_congr_left fun a ha => ?_
  obtain ⟨y, hy, x, hx, rfl⟩ := c.mem_pixelAddrs.1 ha
  rw [Memory.readWord_congr o fun j hj => h _ (c.mem_srcBytes.2 ⟨y, hy, x, hx, j, hj, rfl⟩)]

/-! ### The memory a conversion leaves -/

variable {f : Word → List Byte} {s : State}

theorem State.storeStream_read_other (hf : ∀ p, (f p).length = c.bpp) {a : Nat} (h : a ∉ c.writtenSet) :
    (s.storeStream f c).mem.read a = s.mem.read a := by
  refine Memory.read_place_other fun j hj hc => h (c.mem_writtenSet.2 ⟨j, ?_, ?_⟩)
  · rwa [Conversion.length_stream hf] at hj
  · rwa [Nat.zero_add] at hc

theorem State.storeStream_wf (hf : ∀ p, (f p).length = c.bpp) (hm : s.mem.Wf) (hr : c.checkRegions = none) :
    (s.storeStream f c).mem.Wf := by
  refine Memory.place_wf hm fun j hj => ?_
  rw [Conversion.length_stream hf] at hj
  rw [Nat.zero_add]
  exact c.written_lt hr hj

/-- Byte `t` of pixel `(x, y)` is read back at its swizzled place (40_convert.md R117). -/
theorem State.storeStream_read (hf : ∀ p, (f p).length = c.bpp) (hm : s.mem.Wf) (hr : c.checkRegions = none)
    {x y t : Nat} (hx : x < c.width) (hy : y < c.height) (ht : t < c.bpp) :
    some ((s.storeStream f c).mem.read (c.dst + swizzle (c.bpp * (c.width * y + x) + t))) =
      (f (s.mem.readWord s.tie.conv.srcOrder (c.src + y * c.pitch + 4 * x)))[t]? := by
  have hs := Conversion.getElem?_stream hf s.tie.conv.srcOrder s.mem hx hy ht
  have hft : t < (f (s.mem.readWord s.tie.conv.srcOrder (c.src + y * c.pitch + 4 * x))).length := by rw [hf]; exact ht
  rw [List.getElem?_eq_getElem hft] at hs
  obtain ⟨hlt, he⟩ := List.getElem?_eq_some_iff.1 hs
  have hp := Memory.read_place (d := c.dst) (k := 0) hm (fun j hj => ?_) hlt
  · rw [Nat.zero_add] at hp
    rw [State.storeStream_mem, hp, he, List.getElem?_eq_getElem hft]
  · rw [Conversion.length_stream hf] at hj
    rw [Nat.zero_add]
    exact c.written_lt hr hj

/-! ### How a conversion ends -/

/-- Everything `State.convert` can answer (40_convert.md R108, R109, R116). -/
theorem State.convert_cases (f : Word → List Byte) (check : Option ErrCode) (c : Conversion) (s : State) :
    (∃ code, check = some code ∧ s.convert f check c = s.raiseError code) ∨
      (check = none ∧ c.admitted s.tie = true ∧ s.convert f check c = (s.storeStream f c).complete) ∨
      (check = none ∧ c.admitted s.tie = false ∧ s.convert f check c = s.busError c.writtenSet) := by
  cases check with
  | some code => exact .inl ⟨code, rfl, rfl⟩
  | none =>
    cases h : c.admitted s.tie
    · exact .inr (.inr ⟨rfl, rfl, by simp [State.convert, h]⟩)
    · exact .inr (.inl ⟨rfl, rfl, by simp [State.convert, h]⟩)

theorem Conversion.checkLine_code {code : ErrCode} (h : c.checkLine = some code) :
    code = .align ∨ code = .range ∨ code = .overlap := by
  unfold Conversion.checkLine Conversion.checkRegions at h
  split at h
  · simp_all
  · split at h
    · simp_all
    · split at h <;> simp_all

theorem Conversion.checkFrame_code {code : ErrCode} (h : c.checkFrame = some code) :
    code = .badDim ∨ code = .align ∨ code = .range ∨ code = .overlap := by
  unfold Conversion.checkFrame Conversion.checkRegions at h
  split at h
  · simp_all
  · split at h
    · simp_all
    · split at h
      · simp_all
      · split at h <;> simp_all

theorem Conversion.admitted_iff {tie : TieOffs} :
    c.admitted tie = true ↔
      (∀ a ∈ c.srcBytes, admits tie a = true) ∧ ∀ a ∈ c.writtenSet, admits tie a = true := by
  simp [Conversion.admitted]

end Sys2Proof.Machine
end

