-- ==== Sys2Proof/Laws/PerInstr.lean ====
section
/-! SUPPORT. Statements made of every command, one lemma per constructor. -/

namespace Sys2Proof.Laws.ReservedBits

/-- The word of a command has RSVD, `CMD[31:8]`, zero (30_encoding.md R72), and its OP is CLASS above BPP (R70, R71). -/
def Statement (i : Instr) : Prop :=
  rsvdField (encode i) = 0 ∧ (opField (encode i)).toNat = 16 * i.cmdClass.toNat + i.cmdBpp.toNat

theorem nop : Statement .nop := by unfold Statement; decide
theorem line16 : Statement .line16 := by unfold Statement; decide
theorem line24 : Statement .line24 := by unfold Statement; decide
theorem frame16 : Statement .frame16 := by unfold Statement; decide
theorem frame24 : Statement .frame24 := by unfold Statement; decide
theorem pllsyn : Statement .pllsyn := by unfold Statement; decide

end Sys2Proof.Laws.ReservedBits
end

