-- ==== Sys2Proof/Laws/Pll.lean ====
section
/-! SUPPORT. What the PLL search visits and in which order, what it finds, and what a result word holds. -/

namespace Sys2Proof.Machine

/-- The order of visits: prescaler, then multiplier, then divisor (41_pll.md R149). -/
def Triple.Before (x y : Triple) : Prop := x.p < y.p ∨ x.p = y.p ∧ (x.m < y.m ∨ x.m = y.m ∧ x.dv < y.dv)

/-- `b` is the first of the elements of least error. -/
def FirstMinimum (b : Triple) (l : List Triple) : Prop :=
  ∃ l₁ l₂, l = l₁ ++ b :: l₂ ∧ (∀ x ∈ l₁, b.err < x.err) ∧ ∀ x ∈ l₂, b.err ≤ x.err

theorem bestOf_some_cases {b₀ b : Triple} {l : List Triple} (h : bestOf (some b₀) l = some b) :
    (b = b₀ ∧ ∀ x ∈ l, b.err ≤ x.err) ∨ (b.err < b₀.err ∧ FirstMinimum b l) := by
  induction l generalizing b₀ with
  | nil =>
    simp only [bestOf, Option.some.injEq] at h
    exact .inl ⟨h.symm, by simp⟩
  | cons y l ih =>
    rw [bestOf] at h
    split at h
    next hlt =>
      rcases ih h with ⟨rfl, hle⟩ | ⟨hb, l₁, l₂, rfl, h1, h2⟩
      · exact .inr ⟨hlt, [], l, rfl, by simp, hle⟩
      · refine .inr ⟨hb.trans hlt, y :: l₁, l₂, rfl, fun x hx => ?_, h2⟩
        rcases List.mem_cons.1 hx with rfl | hx
        · exact hb
        · exact h1 x hx
    next hge =>
      rcases ih h with ⟨rfl, hle⟩ | ⟨hb, l₁, l₂, rfl, h1, h2⟩
      · refine .inl ⟨rfl, fun x hx => ?_⟩
        rcases List.mem_cons.1 hx with rfl | hx
        · exact Nat.le_of_not_lt hge
        · exact hle x hx
      · refine .inr ⟨hb, y :: l₁, l₂, rfl, fun x hx => ?_, h2⟩
        rcases List.mem_cons.1 hx with rfl | hx
        · omega
        · exact h1 x hx

theorem bestOf_some_ne_none (b : Triple) (l : List Triple) : bestOf (some b) l ≠ none := by
  induction l generalizing b with
  | nil => simp [bestOf]
  | cons y l ih =>
    rw [bestOf]
    split
    · exact ih y
    · exact ih b

theorem bestOf_none_eq_none {l : List Triple} : bestOf none l = none ↔ l = [] := by
  cases l with
  | nil => simp [bestOf]
  | cons y l => simp [bestOf, bestOf_some_ne_none]

/-- The search keeps the first triple of least error (41_pll.md R149). -/
theorem bestOf_none_some {b : Triple} {l : List Triple} (h : bestOf none l = some b) : FirstMinimum b l := by
  cases l with
  | nil => simp [bestOf] at h
  | cons y l =>
    rw [bestOf] at h
    rcases bestOf_some_cases h with ⟨rfl, hle⟩ | ⟨hb, l₁, l₂, rfl, h1, h2⟩
    · exact ⟨[], l, rfl, by simp, hle⟩
    · refine ⟨y :: l₁, l₂, rfl, fun x hx => ?_, h2⟩
      rcases List.mem_cons.1 hx with rfl | hx
      · exact hb
      · exact h1 x hx

variable {errOf : Nat → Nat → Nat → Nat} {pll : PllParams} {target : Nat}

/-- What the search visits (41_pll.md R147, R149). -/
theorem mem_candidates {x : Triple} :
    x ∈ candidates errOf pll target ↔
      (x.p = 1 ∨ x.p = 2) ∧ (1 ≤ x.m ∧ x.m ≤ 128) ∧ x.dv ∈ pll.divisors ∧ x.vco = vco pll x.p x.m ∧
        (pll.vcoMin ≤ x.vco ∧ x.vco ≤ pll.vcoMax) ∧ x.err = errOf x.vco x.dv target := by
  obtain ⟨p, m, dv, v, e⟩ := x
  simp only [candidates, Config.prescalers, Config.multMax, List.mem_flatMap, List.mem_cons, List.not_mem_nil, or_false,
    List.mem_range', pairTriples]
  constructor
  · rintro ⟨p', hp, m', ⟨i, hi, rfl⟩, h⟩
    split at h
    · simp at h
    · obtain ⟨dv', hdv, he⟩ := List.mem_map.1 h
      simp only [Triple.mk.injEq] at he
      obtain ⟨rfl, rfl, rfl, rfl, rfl⟩ := he
      exact ⟨hp, by omega, hdv, rfl, by omega, rfl⟩
  · rintro ⟨hp, hm, hdv, rfl, hv, rfl⟩
    refine ⟨p, hp, m, ⟨m - 1, by omega, by omega⟩, ?_⟩
    rw [if_neg (by omega)]
    exact List.mem_map.2 ⟨dv, hdv, rfl⟩

theorem pairwise_flatMap {α β : Type} {R : α → α → Prop} {S : β → β → Prop} {f : α → List β} {l : List α}
    (hl : l.Pairwise R) (hin : ∀ a ∈ l, (f a).Pairwise S) (hout : ∀ a b, R a b → ∀ x ∈ f a, ∀ y ∈ f b, S x y) :
    (l.flatMap f).Pairwise S := by
  induction l with
  | nil => simp
  | cons a l ih =>
    have hp := List.pairwise_cons.1 hl
    rw [List.flatMap_cons, List.pairwise_append]
    refine ⟨hin a (by simp), ih hp.2 fun b hb => hin b (by simp [hb]), fun x hx y hy => ?_⟩
    obtain ⟨b, hb, hy⟩ := List.mem_flatMap.1 hy
    exact hout a b (hp.1 b hb) x hx y hy

theorem pairTriples_fields {p m : Nat} {x : Triple} (h : x ∈ pairTriples errOf pll target p m) : x.p = p ∧ x.m = m := by
  unfold pairTriples at h
  split at h
  · simp at h
  · obtain ⟨_, _, rfl⟩ := List.mem_map.1 h
    exact ⟨rfl, rfl⟩

/-- The search visits its candidates in the order of R149. -/
theorem candidates_in_order (h : pll.divisors.Pairwise (· < ·)) :
    (candidates errOf pll target).Pairwise Triple.Before := by
  refine pairwise_flatMap (R := (· < ·)) (by decide) (fun p _ => ?_) fun p q hpq x hx y hy => ?_
  · refine pairwise_flatMap (R := (· < ·)) List.pairwise_lt_range' (fun m _ => ?_) fun m n hmn x hx y hy => ?_
    · unfold pairTriples
      split
      · simp
      · exact (List.pairwise_map.2 (h.imp fun hab => .inr ⟨rfl, .inr ⟨rfl, hab⟩⟩))
    · have h1 := pairTriples_fields hx
      have h2 := pairTriples_fields hy
      exact .inr ⟨by rw [h1.1, h2.1], .inl (by rw [h1.2, h2.2]; exact hmn)⟩
  · obtain ⟨m, _, hx⟩ := List.mem_flatMap.1 hx
    obtain ⟨n, _, hy⟩ := List.mem_flatMap.1 hy
    exact .inl (by rw [(pairTriples_fields hx).1, (pairTriples_fields hy).1]; exact hpq)

/-- What `search` finds is a candidate. -/
theorem mem_candidates_of_search {b : Triple} (h : search errOf pll target = some b) :
    b ∈ candidates errOf pll target := by
  obtain ⟨l₁, l₂, he, -, -⟩ := bestOf_none_some h
  rw [he]
  simp

/-- When one adjustment succeeds (41_pll.md R144, R150). -/
theorem tryAdjustment_some {t total : Nat} {a : Int} {r : Accepted} :
    tryAdjustment errOf pll t total a = some r ↔
      (1 ≤ (total : Int) + a ∧ (total : Int) + a ≤ 4294967295) ∧
        adjustedClock t total ((total : Int) + a).toNat ≠ 0 ∧
        search errOf pll (adjustedClock t total ((total : Int) + a).toNat) = some r.best ∧
        r.best.err ≤ pll.ppmMax ∧ r.adj = a ∧ r.total = ((total : Int) + a).toNat := by
  have hw : (Config.wordMax : Int) = 4294967295 := rfl
  unfold tryAdjustment
  rw [hw]
  split
  next h => simp only [reduceCtorEq, false_iff]; omega
  next h =>
    split
    next h0 => simp [h0]
    next h0 =>
      split
      next hs => simp [hs]
      next b hs =>
        obtain ⟨rb, ra, rt⟩ := r
        split
        next hb =>
          simp only [Option.some.injEq, Accepted.mk.injEq, hs]
          constructor
          · rintro ⟨rfl, rfl, rfl⟩; exact ⟨by omega, h0, rfl, hb, rfl, rfl⟩
          · rintro ⟨-, -, rfl, -, rfl, rfl⟩; exact ⟨rfl, rfl, rfl⟩
        next hb =>
          simp only [reduceCtorEq, hs, Option.some.injEq, false_iff]
          rintro ⟨-, -, rfl, hb', -⟩
          exact hb hb'

/-- Everything `synthesize` can find. -/
theorem synthesize_some {t total : Nat} {r : Accepted} (h : synthesize errOf pll t total = some r) :
    r.adj ∈ adjSeq ∧ tryAdjustment errOf pll t total r.adj = some r := by
  obtain ⟨a, ha, hr⟩ := List.exists_of_findSome?_eq_some h
  obtain rfl : r.adj = a := (tryAdjustment_some.1 hr).2.2.2.2.1
  exact ⟨ha, hr⟩

theorem mem_adjSeq_bounds {a : Int} (h : a ∈ adjSeq) : -10 ≤ a ∧ a ≤ 10 := by
  have : ∀ a ∈ adjSeq, -10 ≤ a ∧ a ≤ 10 := by decide
  exact this a h

theorem band_lt (v : Nat) : band pll v < 4 := by
  unfold band
  split <;> split <;> split <;> omega

/-! ### The result word (10_state.md R29) -/

theorem cfgWord_toNat {b p m : Nat} (hb : b < 4) (hp : p < 4) (hm : m < 256) :
    (cfgWord b p m).toNat = 4096 * b + 256 * p + m := by
  have : ∀ b < 4, ∀ p < 4, ∀ m : BitVec 8, (cfgWord b p m.toNat).toNat = 4096 * b + 256 * p + m.toNat := by
    intro b hb p hp
    interval_cases b <;> interval_cases p <;> decide +revert
  simpa [Nat.mod_eq_of_lt hm] using this b hb p hp (BitVec.ofNat 8 m)

/-- The fields of a result word. -/
theorem cfgWord_fields {b p m : Nat} (hb : b < 4) (hp : p < 4) (hm : m < 256) :
    ((cfgWord b p m).extractLsb' 0 8).toNat = m ∧ ((cfgWord b p m).extractLsb' 8 2).toNat = p ∧
      (cfgWord b p m).extractLsb' 10 2 = 0 ∧ ((cfgWord b p m).extractLsb' 12 2).toNat = b ∧
      (cfgWord b p m).extractLsb' 14 18 = 0 := by
  have h := cfgWord_toNat hb hp hm
  refine ⟨?_, ?_, BitVec.eq_of_toNat_eq ?_, ?_, BitVec.eq_of_toNat_eq ?_⟩ <;>
    simp only [BitVec.extractLsb'_toNat, h, Nat.shiftRight_eq_div_pow, BitVec.toNat_ofNat, BitVec.ofNat_eq_ofNat] <;> norm_num <;> omega

end Sys2Proof.Machine
end

