-- ==== Sys2Proof/Laws/Step.lean ====
section
/-! SUPPORT. Everything a command, a host access and a step can do, said once. -/

namespace Sys2Proof.Machine

/-! ### Commands -/

/-- A conversion command is `State.convert` of its operands, in every state with the same latched record: with a stream
function of the tie-offs alone, and with a check whose passing means that the regions are sound. -/
theorem exec_conversion {i : Instr} {l : Latched} {c : Conversion} (h : conversionOf i l = some c) :
    ∃ (f : ConvParams → Word → List Byte) (check : Option ErrCode),
      (∀ s : State, s.latched = l → exec i s = .next (s.convert (f s.tie.conv) check c)) ∧
        (∀ q p, (f q p).length = c.bpp) ∧ (check = none → c.checkRegions = none) ∧
        ∀ code, check = some code → code ≠ .none ∧ code ≠ .bus := by
  have hl : ∀ c : Conversion, ∀ code, c.checkLine = some code → code ≠ .none ∧ code ≠ .bus := fun c code hc => by
    rcases c.checkLine_code hc with rfl | rfl | rfl <;> simp
  have hf : ∀ c : Conversion, ∀ code, c.checkFrame = some code → code ≠ .none ∧ code ≠ .bus := fun c code hc => by
    rcases c.checkFrame_code hc with rfl | rfl | rfl | rfl <;> simp
  cases i <;> simp only [conversionOf, Option.some.injEq, reduceCtorEq] at h
  · subst h
    exact ⟨stream16, _, fun s hs => by rw [← hs]; rfl, fun _ => length_stream16 _,
      fun hc => ((Conversion.checkLine_none _).1 hc).2.2, hl _⟩
  · subst h
    exact ⟨stream24, _, fun s hs => by rw [← hs]; rfl, fun _ => length_stream24 _,
      fun hc => ((Conversion.checkLine_none _).1 hc).2.2, hl _⟩
  · subst h
    exact ⟨stream16, _, fun s hs => by rw [← hs]; rfl, fun _ => length_stream16 _,
      fun hc => ((Conversion.checkFrame_none _).1 hc).2.2, hf _⟩
  · subst h
    exact ⟨stream24, _, fun s hs => by rw [← hs]; rfl, fun _ => length_stream24 _,
      fun hc => ((Conversion.checkFrame_none _).1 hc).2.2, hf _⟩

/-- Everything PLLSYN can answer. -/
theorem execPllsyn_cases (s : State) :
    (∃ code, code ∈ [ErrCode.illegalCmd, .badClock, .clockHigh, .unsat] ∧ execPllsyn s = .next (s.raiseError code)) ∨
      execPllsyn s = .refused .badConfiguration ∨
      ∃ r, s.tie.pllPresent = true ∧ s.tie.pll.Wf ∧
        synthesize ppm s.tie.pll s.latched.targetClk.toNat s.latched.baseTotal.toNat = some r ∧
        execPllsyn s = .next (s.writeResult r).complete := by
  unfold execPllsyn
  split
  · exact .inl ⟨.illegalCmd, by simp, rfl⟩
  · split
    · exact .inl ⟨.badClock, by simp, rfl⟩
    · split
      · exact .inr (.inl rfl)
      · split
        · exact .inl ⟨.clockHigh, by simp, rfl⟩
        · rename_i hp _ hw _
          cases hs : synthesize ppm s.tie.pll s.latched.targetClk.toNat s.latched.baseTotal.toNat with
          | none => exact .inl ⟨.unsat, by simp, rfl⟩
          | some r => exact .inr (.inr ⟨r, by simpa using hp, not_not.1 hw, rfl, rfl⟩)

/-- The ways a command answers a next state. -/
inductive Ending (i : Instr) (s : State) : State → Prop
  | nop (h : i = .nop) : Ending i s s.complete
  | error (code : ErrCode) (h : code ≠ .none ∧ code ≠ .bus) : Ending i s (s.raiseError code)
  | converted (c : Conversion) (f : Word → List Byte) (h : conversionOf i s.latched = some c)
      (hf : ∀ p, (f p).length = c.bpp) (hr : c.checkRegions = none) : Ending i s (s.storeStream f c).complete
  | bus (c : Conversion) (h : conversionOf i s.latched = some c) (hr : c.checkRegions = none) :
      Ending i s (s.busError c.writtenSet)
  | found (r : Accepted) (h : i = .pllsyn) (hp : s.tie.pllPresent = true) (hw : s.tie.pll.Wf)
      (hs : synthesize ppm s.tie.pll s.latched.targetClk.toNat s.latched.baseTotal.toNat = some r) :
      Ending i s (s.writeResult r).complete

/-- Inversion of `exec`: what a command that answers a next state has done. -/
theorem exec_next {i : Instr} {s t : State} (h : exec i s = .next t) : Ending i s t := by
  cases hc : conversionOf i s.latched with
  | some c =>
    obtain ⟨f, check, he, hf, hr, hcode⟩ := exec_conversion hc
    rw [he s rfl] at h
    simp only [Host.Outcome.next.injEq] at h
    subst h
    rcases s.convert_cases (f s.tie.conv) check c with ⟨code, hk, e⟩ | ⟨hk, -, e⟩ | ⟨hk, -, e⟩ <;> rw [e]
    · exact .error code (hcode code hk)
    · exact .converted c _ hc (hf _) (hr hk)
    · exact .bus c hc (hr hk)
  | none =>
    cases i <;> simp only [conversionOf, reduceCtorEq] at hc
    · simp only [exec, execNop, Host.Outcome.next.injEq] at h
      subst h
      exact .nop rfl
    · rw [exec] at h
      rcases execPllsyn_cases s with ⟨code, hm, e⟩ | e | ⟨r, hp, hw, hs, e⟩ <;> rw [e] at h
      · simp only [Host.Outcome.next.injEq] at h
        subst h
        refine .error code ?_
        simp only [List.mem_cons, List.not_mem_nil, or_false] at hm
        rcases hm with rfl | rfl | rfl | rfl <;> simp
      · simp at h
      · simp only [Host.Outcome.next.injEq] at h
        subst h
        exact .found r rfl hp hw hs

/-- The engine step raises ILLEGAL_CMD or runs a command. -/
theorem engineStep_next {s t : State} (h : s.engineStep = .next t) :
    t = s.raiseError .illegalCmd ∨ ∃ i, decode s.tie.pllPresent s.latched.cmd = .ok i ∧ exec i s = .next t := by
  unfold State.engineStep at h
  split at h
  next i hi => exact .inr ⟨i, hi, h⟩
  next => simp only [Host.Outcome.next.injEq] at h; exact .inl h.symm

/-- An engine step ends the command and leaves alone what is not its own. -/
theorem engineStep_keeps {s t : State} (h : s.engineStep = .next t) :
    t.status.busy = false ∧ t.status.ovr = s.status.ovr ∧ t.latched = s.latched ∧ t.tie = s.tie ∧ t.host = s.host ∧
      t.sched = s.sched ∧ t.seen = s.seen := by
  rcases engineStep_next h with rfl | ⟨i, -, hi⟩
  · simp
  · cases exec_next hi <;> simp

/-! ### The host -/

/-- A register access that is allowed is a 32-bit access at the offset of its slot. -/
theorem regAccess_ok {tie : TieOffs} {addr bits : Nat} {r : Reg} (h : regAccess tie addr bits = .ok r) :
    bits = 32 ∧ addr = windowBase tie + r.offset := by
  unfold regAccess Config.windowBytes at h
  split at h
  · simp at h
  · split at h
    · simp at h
    · simp only [Except.ok.injEq] at h
      have hk : (addr - windowBase tie) / 4 < 16 := by omega
      have hoff : ∀ k < 16, (Reg.ofSlot k).offset = 4 * k := by decide
      have := hoff _ hk
      rw [h] at this
      omega

theorem regAccess_offset (tie : TieOffs) (r : Reg) : regAccess tie (windowBase tie + r.offset) 32 = .ok r := by
  have hlt : r.offset < 64 := by cases r <;> decide
  have hmod : r.offset % 4 = 0 := by cases r <;> decide
  have hslot : Reg.ofSlot (r.offset / 4) = r := by cases r <;> decide
  unfold regAccess Config.windowBytes
  rw [if_neg (by omega), if_neg (by omega), Nat.add_sub_cancel_left, hslot]

/-- The ways a host step answers a next state. -/
inductive HostEnding (s : State) : HostStep → State → Prop
  | read (r : Reg) : HostEnding s (.regRead (windowBase s.tie + r.offset) 32) (s.observe (.reg r.offset (s.readReg r)))
  | write (r : Reg) (v : Word) : HostEnding s (.regWrite (windowBase s.tie + r.offset) 32 v) (s.writeReg r v)
  | wait : HostEnding s .wait s.hostWaits
  | memRead (a : Nat) (h : a < Config.memBytes) : HostEnding s (.memRead a) (s.hostReads a)
  | memWrite (a : Nat) (v : Byte) (h : a < Config.memBytes) (ho : s.owned a = false) :
      HostEnding s (.memWrite a v) { s with mem := s.mem.write a v }
  | reset : HostEnding s .reset s.resetNow

/-- Inversion of a host step. -/
theorem hostStep_next {op : HostStep} {s t : State} (h : State.hostStep op s = .next t) : HostEnding s op t := by
  cases op with
  | regRead addr bits =>
    simp only [State.hostStep] at h
    split at h
    · simp at h
    next r hr =>
      simp only [Host.Outcome.next.injEq] at h
      obtain ⟨rfl, rfl⟩ := regAccess_ok hr
      exact h ▸ .read r
  | regWrite addr bits v =>
    simp only [State.hostStep] at h
    split at h
    · simp at h
    next r hr =>
      simp only [Host.Outcome.next.injEq] at h
      obtain ⟨rfl, rfl⟩ := regAccess_ok hr
      exact h ▸ .write r v
  | wait =>
    simp only [State.hostStep, Host.Outcome.next.injEq] at h
    exact h ▸ .wait
  | memRead a =>
    simp only [State.hostStep] at h
    split at h
    · simp at h
    next ha =>
      simp only [Host.Outcome.next.injEq] at h
      exact h ▸ .memRead a (by omega)
  | memWrite a v =>
    simp only [State.hostStep] at h
    split at h
    · simp at h
    next ha =>
      split at h
      · simp at h
      next ho =>
        simp only [Host.Outcome.next.injEq] at h
        exact h ▸ .memWrite a v (by omega) (by simpa using ho)
  | reset =>
    simp only [State.hostStep, Host.Outcome.next.injEq] at h
    exact h ▸ .reset

/-- The ways a host write to a register changes the state. -/
theorem writeReg_keeps (s : State) (r : Reg) (w : Word) :
    (s.writeReg r w).mem = s.mem ∧ (s.writeReg r w).tie = s.tie ∧ (s.writeReg r w).host = s.host ∧
      (s.writeReg r w).sched = s.sched ∧ (s.writeReg r w).seen = s.seen ∧ (s.writeReg r w).draws = s.draws := by
  cases r <;> simp only [State.writeReg, State.writeCmd] <;> (try split) <;> simp

theorem hostWaits_keeps (s : State) :
    s.hostWaits.regs = s.regs ∧ s.hostWaits.status = s.status ∧ s.hostWaits.latched = s.latched ∧
      s.hostWaits.mem = s.mem ∧ s.hostWaits.tie = s.tie ∧ s.hostWaits.sched = s.sched := by
  unfold State.hostWaits
  split <;> simp

theorem hostReads_keeps (s : State) (a : Nat) :
    (s.hostReads a).regs = s.regs ∧ (s.hostReads a).status = s.status ∧ (s.hostReads a).latched = s.latched ∧
      (s.hostReads a).mem = s.mem ∧ (s.hostReads a).tie = s.tie ∧ (s.hostReads a).host = s.host ∧
      (s.hostReads a).sched = s.sched := by
  unfold State.hostReads
  split <;> simp

theorem abortedBytes_lt {s : State} {a : Nat} (h : a ∈ s.abortedBytes) : a < Config.memBytes := by
  unfold State.abortedBytes at h
  split at h
  · simp at h
  · simpa using (List.mem_filter.1 h).2

theorem abortedBytes_nodup (s : State) : s.abortedBytes.Nodup := by
  unfold State.abortedBytes
  split
  · exact List.nodup_nil
  · exact (Conversion.nodup_writtenSet _).filter _

/-! ### Steps -/

theorem turn_idle {s : State} (h : s.turn = .idle) : s.status.busy = false ∧ s.host = [] := by
  unfold State.turn at h
  split at h <;> simp_all

theorem turn_engine {s : State} {q : List Agent} (h : s.turn = .engine q) : s.status.busy = true := by
  unfold State.turn at h
  split at h <;> simp_all

theorem turn_host {s : State} {op : HostStep} {rest : List HostStep} {q : List Agent}
    (h : s.turn = .host op rest q) :
    s.host = op :: rest ∧ (s.status.busy = false ∧ q = s.sched ∨ s.status.busy = true ∧ s.sched = .host :: q) := by
  unfold State.turn at h
  split at h <;> simp_all

/-- Inversion of `step`. -/
theorem step_next {s t : State} (h : step s = .next t) :
    (s.turn = .idle ∧ t = s) ∨
      (∃ q, s.turn = .engine q ∧ State.engineStep { s with sched := q } = .next t) ∨
      ∃ op rest q, s.turn = .host op rest q ∧ HostEnding { s with host := rest, sched := q } op t := by
  unfold step State.agentStep at h
  split at h
  next hi => simp only [Host.Outcome.next.injEq] at h; exact .inl ⟨hi, h.symm⟩
  next q hq => exact .inr (.inl ⟨q, hq, h⟩)
  next op rest q hq => exact .inr (.inr ⟨op, rest, q, hq, hostStep_next h⟩)

/-- A host step leaves the schedule alone. -/
theorem hostEnding_sched {op : HostStep} {s t : State} (h : HostEnding s op t) : t.sched = s.sched := by
  cases h with
  | read r => rfl
  | write r v => exact (writeReg_keeps _ _ _).2.2.2.1
  | wait => exact (hostWaits_keeps _).2.2.2.2.2
  | memRead a => exact (hostReads_keeps _ _).2.2.2.2.2.2
  | memWrite a v => rfl
  | reset => rfl

theorem run_next {k : Nat} {s t : State} (h : step s = .next t) :
    Host.Core.run Sys2Proof.core (k + 1) s = Host.Core.run Sys2Proof.core k t := by
  have h' : Sys2Proof.core.step s = .next t := h
  simp only [Host.Core.run, h']

theorem run_fault {k : Nat} {s : State} {r : Fault} (h : step s = .fault r) :
    Host.Core.run Sys2Proof.core (k + 1) s = .fault r := by
  have h' : Sys2Proof.core.step s = .fault r := h
  simp only [Host.Core.run, h']

theorem run_refused {k : Nat} {s : State} {r : Refusal} (h : step s = .refused r) :
    Host.Core.run Sys2Proof.core (k + 1) s = .refused r := by
  have h' : Sys2Proof.core.step s = .refused r := h
  simp only [Host.Core.run, h']

/-! ### Results -/

/-- Whether the result registers are legal depends on them and on the tie-offs alone. -/
theorem result_legal_congr {s t : State} (h : s.NoResult ∨ s.LegalResult) (h1 : t.regs.pllCfg = s.regs.pllCfg)
    (h2 : t.regs.pllDiv = s.regs.pllDiv) (h3 : t.regs.pllClk = s.regs.pllClk) (h4 : t.regs.pllAdj = s.regs.pllAdj)
    (h5 : t.regs.pllTotal = s.regs.pllTotal) (h6 : t.regs.pllPpm = s.regs.pllPpm) (h7 : t.tie = s.tie) :
    t.NoResult ∨ t.LegalResult := by
  rcases h with h | ⟨a1, a2, a3, a4, a5, a6, a7, a8, a9, a10, a11⟩
  · exact .inl (by unfold State.NoResult at *; rw [h1, h2, h3, h4, h5, h6]; exact h)
  · refine .inr ?_
    constructor <;>
      simp only [State.mult, State.presc, State.resultVco, State.bandField, h1, h2, h3, h4, h5, h6, h7] at * <;>
      assumption

/-- What `write_result` writes for a configuration the search accepted (41_pll.md R152). -/
theorem writeResult_legal {s : State} {r : Accepted} (hw : s.tie.pll.Wf)
    (hs : synthesize ppm s.tie.pll s.latched.targetClk.toNat s.latched.baseTotal.toNat = some r) :
    (s.writeResult r).LegalResult := by
  obtain ⟨ha, ht⟩ := synthesize_some hs
  obtain ⟨hb, -, hsr, herr, -, htot⟩ := tryAdjustment_some.1 ht
  have hab := mem_adjSeq_bounds ha
  obtain ⟨hp, hm, hd, hv, hvr, -⟩ := mem_candidates.1 (mem_candidates_of_search hsr)
  obtain ⟨-, -, h3, ⟨-, -, hdv⟩, -, h5, -, -⟩ := hw
  have hf := cfgWord_fields (b := band s.tie.pll r.best.vco) (p := r.best.p) (m := r.best.m) (band_lt _)
    (by omega) (by omega)
  have hvco : (s.writeResult r).resultVco = r.best.vco := by
    simp only [State.resultVco, State.mult, State.presc, State.writeResult_regs_pllCfg, State.writeResult_tie]
    rw [hf.1, hf.2.1, hv]
    rfl
  have hdd := hdv _ hd
  have hdiv : (s.writeResult r).regs.pllDiv.toNat = r.best.dv := by
    simp only [State.writeResult_regs_pllDiv, BitVec.toNat_ofNat]
    omega
  have hadj : (s.writeResult r).regs.pllAdj.toInt = r.adj := by
    simp only [State.writeResult_regs_pllAdj, BitVec.toInt_ofInt]
    apply Int.bmod_eq_of_le <;> omega
  constructor
  · simp only [State.mult, State.writeResult_regs_pllCfg, hf]; omega
  · simp only [State.presc, State.writeResult_regs_pllCfg, hf]; omega
  · simp only [State.writeResult_regs_pllCfg, hf]
  · simp only [State.writeResult_regs_pllCfg, hf]
  · rw [hvco]; exact hvr
  · rw [hvco]; simp only [State.bandField, State.writeResult_regs_pllCfg, hf]; rfl
  · rw [hdiv]; exact hd
  · rw [hvco, hdiv]
    simp only [State.writeResult_regs_pllClk, BitVec.toNat_ofNat]
    exact Nat.mod_eq_of_lt (lt_of_le_of_lt (Nat.div_le_self _ _) (by omega))
  · rw [hadj]; exact hab
  · simp only [State.writeResult_regs_pllTotal, BitVec.toNat_ofNat]; omega
  · simp only [State.writeResult_regs_pllPpm, BitVec.toNat_ofNat]; exact le_trans (Nat.mod_le _ _) herr

end Sys2Proof.Machine
end

