-- ==== Sys2Proof/Laws/Terms.lean ====
section
/-! SUPPORT. How the terms the statements are written in (`Sys2Proof.Claims`) match the model's operand regions and
checks. -/

namespace Sys2Proof.Claims

open Sys2Proof.Machine

theorem up8_eq_ceil8 : up8 = ceil8 := rfl

theorem ceil8_pos {n : Nat} : 0 < ceil8 n ↔ 0 < n := by
  unfold ceil8
  omega

theorem readWord_le (m : Memory) (a : Nat) : m.readWord .le a = pixelAt m a := rfl

theorem raiseError_eq (s : State) (code : ErrCode) : s.raiseError code = { s with status := endedWith code s } := rfl

theorem complete_eq (s : State) : s.complete = { s with status := endedOk s } := rfl

theorem mem_writtenSet_iff {c : Conversion} {a : Nat} :
    a ∈ c.writtenSet ↔ Written c.dst (c.bpp * c.width * c.height) a := c.mem_writtenSet

theorem checkRegions_none_iff {c : Conversion} :
    c.checkRegions = none ↔
      InRange c.src c.srcSpan c.dst c.streamLen ∧ ¬ Meets c.src c.srcSpan c.dst c.streamLen := by
  rw [c.checkRegions_none]
  have := @ceil8_pos c.streamLen
  unfold InRange Meets Conversion.windowLen
  rw [up8_eq_ceil8, this]

theorem checkRegions_range {c : Conversion} (h : ¬ InRange c.src c.srcSpan c.dst c.streamLen) :
    c.checkRegions = some .range := by
  unfold Conversion.checkRegions Config.memBytes Conversion.windowLen
  unfold InRange at h
  rw [up8_eq_ceil8] at h
  rw [if_pos (by omega)]

theorem checkRegions_overlap {c : Conversion} (h : InRange c.src c.srcSpan c.dst c.streamLen)
    (h2 : Meets c.src c.srcSpan c.dst c.streamLen) : c.checkRegions = some .overlap := by
  have e := @ceil8_pos c.streamLen
  unfold Conversion.checkRegions Config.memBytes Conversion.windowLen overlaps
  unfold InRange at h
  unfold Meets at h2
  rw [up8_eq_ceil8] at h h2
  rw [if_neg (by omega), if_pos (by simp only [decide_eq_true_eq]; omega)]

theorem allAdmitted_iff {c : Conversion} {tie : TieOffs} :
    c.admitted tie = true ↔ AllAdmitted tie c.src c.pitch c.width c.height c.dst c.streamLen := by
  rw [Conversion.admitted_iff]
  unfold AllAdmitted
  constructor
  · rintro ⟨h1, h2⟩
    exact ⟨fun y hy x hx j hj => h1 _ (c.mem_srcBytes.2 ⟨y, hy, x, hx, j, hj, rfl⟩),
      fun k hk => h2 _ (c.mem_writtenSet.2 ⟨k, hk, rfl⟩)⟩
  · rintro ⟨h1, h2⟩
    constructor
    · intro a ha
      obtain ⟨y, hy, x, hx, j, hj, rfl⟩ := c.mem_srcBytes.1 ha
      exact h1 y hy x hx j hj
    · intro a ha
      obtain ⟨k, hk, rfl⟩ := c.mem_writtenSet.1 ha
      exact h2 k hk

theorem line_streamLen (bpp : Nat) (s : State) : (lineOperands bpp s.latched).streamLen = bpp * W s := by
  simp [lineOperands, Conversion.streamLen, W]

theorem line_srcSpan (bpp : Nat) (s : State) : (lineOperands bpp s.latched).srcSpan = 4 * W s := by
  simp [lineOperands, Conversion.srcSpan, W]

theorem lineFits_iff {bpp : Nat} {s : State} : (lineOperands bpp s.latched).checkLine = none ↔ LineFits bpp s := by
  rw [Conversion.checkLine_none, checkRegions_none_iff, line_streamLen, line_srcSpan]
  unfold LineFits LineAligned
  simp only [lineOperands, S, D, W]
  tauto

theorem lineAdmitted_iff {bpp : Nat} {s : State} :
    (lineOperands bpp s.latched).admitted s.tie = true ↔ LineAdmitted bpp s := by
  rw [allAdmitted_iff, line_streamLen]
  rfl

theorem frameFits_iff {bpp : Nat} {s : State} : (frameOperands bpp s.latched).checkFrame = none ↔ FrameFits bpp s := by
  rw [Conversion.checkFrame_none, checkRegions_none_iff]
  rfl

theorem frameAdmitted_iff {bpp : Nat} {s : State} :
    (frameOperands bpp s.latched).admitted s.tie = true ↔ FrameAdmitted bpp s := by
  rw [allAdmitted_iff]
  rfl

theorem rgb565_truncate (p : Word) : rgb565 .truncate p = rgb16 p := by
  have field : ∀ a b n, b + n ≤ 8 → (p.extractLsb' a 8).extractLsb' b n = p.extractLsb' (a + b) n := fun a b n h => by
    apply BitVec.eq_of_getLsbD_eq
    intro i hi
    simp only [BitVec.getLsbD_extractLsb', hi, decide_true, Bool.true_and, Nat.add_assoc,
      show b + i < 8 by omega]
  unfold rgb565 rgb16 pixelR pixelG pixelB
  simp only [field 16 3 5 (by omega), field 8 2 6 (by omega), field 0 3 5 (by omega)]

/-! ### PLLSYN -/

theorem adjSeq_eq : adjSeq = adjustments := by decide

theorem tryAdjustment_of_accepts {s : State} {a : Int} {b : Triple} (h : Accepts s a b) :
    tryAdjustment ppm s.tie.pll (clk s) (tot s) a = some ⟨b, a, ((tot s : Int) + a).toNat⟩ := by
  rw [tryAdjustment_some]
  exact ⟨h.1, h.2.1, h.2.2.1, h.2.2.2, rfl, rfl⟩

theorem tryAdjustment_none_iff {s : State} {a : Int} :
    tryAdjustment ppm s.tie.pll (clk s) (tot s) a = none ↔ Rejects s a := by
  constructor
  · intro h
    by_contra hr
    unfold Rejects at hr
    obtain ⟨b, hb⟩ := Option.ne_none_iff_exists'.1 fun h3 => hr (.inr (.inr (.inl h3)))
    rw [tryAdjustment_of_accepts ⟨not_not.1 fun h1 => hr (.inl h1), fun h2 => hr (.inr (.inl h2)), hb,
      not_lt.1 fun h4 => hr (.inr (.inr (.inr ⟨b, hb, h4⟩)))⟩] at h
    simp at h
  · intro h
    cases e : tryAdjustment ppm s.tie.pll (clk s) (tot s) a with
    | none => rfl
    | some r =>
      obtain ⟨h1, h2, h3, h4, -, -⟩ := tryAdjustment_some.1 e
      rcases h with h | h | h | ⟨b, hb, hlt⟩
      · exact absurd h1 h
      · exact absurd h h2
      · exact absurd (h.symm.trans h3) (by simp)
      · have := hb.symm.trans h3
        simp only [Option.some.injEq] at this
        subst this
        omega

theorem exec_pllsyn_ready {s : State} (h : PllReady s) :
    exec .pllsyn s = .next (s.endSearch (synthesize ppm s.tie.pll (clk s) (tot s))) := by
  obtain ⟨h1, h2, h3, h4, h5⟩ := h
  simp only [clk, tot] at h3 h4 h5
  rw [exec, execPllsyn, if_neg (by simp [h1]), if_neg (by omega), if_neg (not_not.2 h2), if_neg (by omega)]
  rfl

end Sys2Proof.Claims
end

