-- ==== Sys2Proof/Tests/Slice0.lean ====
section
/-! SUPPORT. Tests on the vectors of 95_test_vectors.md (each names its vector; the numbers are the spec's), and for every
statement with hypotheses a witness that meets them. -/

namespace Sys2Proof.Tests

open Sys2Proof.Machine Sys2Proof.Claims

-- One kernel test at a time, so that a check stays inside its memory.
set_option Elab.async false

/-! ### Small states -/

/-- PSET-B of 95_test_vectors.md 3. -/
def psetB : PllParams :=
  { fRef := 10000000, vcoMin := 500000000, vcoMax := 1000000000, divisors := [4, 8, 16], clockMax := 200000000,
    ppmMax := 0, bandEdge1 := 625000000, bandEdge2 := 750000000, bandEdge3 := 875000000 }

/-- PSET-A with the two divisors that VP-4 reports as the best of its first two adjustments. -/
def psetVp4 : PllParams := { psetB with divisors := [29, 35], ppmMax := 100 }

/-- PSET-A with the divisors 25 and 50 of E3 and of the upper edge of the VCO range. -/
def psetE3 : PllParams := { psetB with divisors := [25, 50], ppmMax := 100 }

/-- The platform of 95_test_vectors.md 4, with its window at bus address 64. -/
def tie : TieOffs :=
  { conv := .spec, pllPresent := true, pll := psetB, admitted := [⟨0x1000, 0x2000⟩], windowIndex := 1 }

/-- A platform that admits all of memory. -/
def wide : TieOffs := { tie with admitted := [⟨0, 2 ^ 32⟩] }

/-- A build without the PLL search. -/
def noPll : TieOffs := { tie with pllPresent := false }

def putBytes : Nat → List Byte → Memory → Memory
  | _, [], m => m
  | a, b :: bs, m => putBytes (a + 1) bs (m.write a b)

/-- Pixels from `0x1000`, least significant byte first, and sixteen bytes `EE` from `0x2000`. -/
def pixels (ps : List Word) : Memory :=
  putBytes 0x2000 (List.replicate 16 0xEE)
    (putBytes 0x1000
      (ps.flatMap fun p => [p.extractLsb' 0 8, p.extractLsb' 8 8, p.extractLsb' 16 8, p.extractLsb' 24 8]) [])

def command (w src dst width height pitch : Word) : Latched :=
  { Latched.zero with cmd := w, srcAddr := src, dstAddr := dst, width := width, height := height, srcPitch := pitch }

def pllCommand (t total : Word) : Latched := { Latched.zero with cmd := 0x30, targetClk := t, baseTotal := total }

/-- A command in flight. -/
def inFlight (tie : TieOffs) (m : Memory) (l : Latched) : State :=
  { State.resetOf tie with
    mem := m, latched := l, regs := { Regs.zero with cmd := l.cmd }, status := { Status.zero with busy := true } }

def after : Result → Option State
  | .next t => some t
  | .fault _ => none
  | .refused _ => none

def status (r : Result) : Option Word := (after r).map fun t => t.status.word

/-- The bytes of the destination window after a command. -/
def window (n : Nat) (r : Result) : Option (List Byte) :=
  (after r).map fun t => (List.range n).map fun k => t.mem.read (0x2000 + k)

/-! ### Well-formedness: an ill-formed term for each check -/

theorem test_pllsyn_refused_when_absent : Instr.wellFormed false .pllsyn = false := by decide

theorem test_every_command_well_formed_when_present : ∀ i ∈ Instr.all, i.wellFormed true = true := by decide

/-- Each breaks one constraint of 00_scope.md R10. -/
theorem test_bad_parameters_refused :
    ∀ p ∈ [{ psetB with fRef := 0 }, { psetB with vcoMin := 1000000001 }, { psetB with vcoMax := 2 ^ 32 },
      { psetB with divisors := [] }, { psetB with divisors := [8, 4] }, { psetB with divisors := [4, 4] },
      { psetB with divisors := [0, 4] }, { psetB with divisors := [4, 2 ^ 32] }, { psetB with clockMax := 2 ^ 32 },
      { psetB with ppmMax := 2 ^ 32 }, { psetB with bandEdge1 := 750000001 }, { psetB with bandEdge3 := 749999999 }],
      ¬ p.Wf := by decide

theorem test_good_parameters_accepted : psetB.Wf ∧ psetVp4.Wf ∧ psetE3.Wf ∧ PllParams.least.Wf := by decide

/-! ### Decoding: words written out from 30_encoding.md R70 and R73 -/

theorem test_legal_words_decode :
    decodeTableWord 32 0b00000000000000000000000000000000 = some .nop ∧
      decodeTableWord 32 0b00000000000000000000000000010010 = some .line16 ∧
      decodeTableWord 32 0b00000000000000000000000000010011 = some .line24 ∧
      decodeTableWord 32 0b00000000000000000000000000100010 = some .frame16 ∧
      decodeTableWord 32 0b00000000000000000000000000100011 = some .frame24 ∧
      decodeTableWord 32 0b00000000000000000000000000110000 = some .pllsyn := by decide

/-- VD-2 to VD-8. -/
theorem test_illegal_words_refused :
    ∀ w ∈ [0x11, 0x14, 0x10, 0x21, 0x31, 0x112, 0xFF], decodeTableWord 32 w = none := by decide

/-- VD-9 and VD-10, as engine steps. -/
theorem test_illegal_commands_end :
    status (inFlight noPll [] (pllCommand 1 1)).engineStep = some 0x106 ∧
      status (inFlight tie [] (command 0x112 0x1002 0x2000 4 0 0)).engineStep = some 0x106 := by decide +kernel

/-! ### One command at a time -/

/-- VD-1. -/
theorem test_nop : status (exec .nop (inFlight tie [] (command 0 0 0 0 0 0))) = some 0x2 := by decide

/-- V16-1. -/
theorem test_line16_primaries :
    window 8 (exec .line16 (inFlight tie (pixels [0x00FF0000, 0x0000FF00, 0x000000FF, 0x00FFFFFF])
      (command 0x12 0x1000 0x2000 4 0 0))) = some [0x1F, 0x00, 0xFF, 0xFF, 0x00, 0xF8, 0xE0, 0x07] := by decide +kernel

/-- V16-3: the last group is partly written. -/
theorem test_line16_partial_group :
    window 8 (exec .line16 (inFlight tie (pixels [0x00112233, 0x00445566, 0x00778899])
      (command 0x12 0x1000 0x2000 3 0 0))) = some [0x53, 0x74, 0xEE, 0xEE, 0x06, 0x11, 0xAC, 0x42] := by decide +kernel

/-- V24-1. -/
theorem test_line24_primaries :
    window 16 (exec .line24 (inFlight tie (pixels [0x00FF0000, 0x0000FF00, 0x000000FF])
      (command 0x13 0x1000 0x2000 3 0 0))) =
      some [0xFF, 0x00, 0x00, 0x00, 0xFF, 0x00, 0x00, 0x00, 0xEE, 0xEE, 0xEE, 0xEE, 0xFF, 0xEE, 0xEE, 0xEE] := by
  decide +kernel

/-- V24-4: X never appears. -/
theorem test_line24_drops_x :
    window 8 (exec .line24 (inFlight tie (pixels [0xAABBCCDD, 0xAABBCCDD]) (command 0x13 0x1000 0x2000 2 0 0))) =
      some [0xCC, 0xDD, 0xEE, 0xEE, 0xBB, 0xCC, 0xDD, 0xBB] := by decide +kernel

/-- VF-1. -/
theorem test_frame16_one_line :
    window 8 (exec .frame16 (inFlight tie (pixels [0x00FF0000, 0x0000FF00, 0x000000FF, 0x00FFFFFF])
      (command 0x22 0x1000 0x2000 4 1 16))) = some [0x1F, 0x00, 0xFF, 0xFF, 0x00, 0xF8, 0xE0, 0x07] := by decide +kernel

/-- VF-2: padding between rows. -/
theorem test_frame24_padding :
    window 16 (exec .frame24 (inFlight tie
      (pixels [0x00112233, 0x00445566, 0xEFBEADDE, 0xEFBEADDE, 0x00778899, 0x00AABBCC])
      (command 0x23 0x1000 0x2000 2 2 16))) =
      some [0x55, 0x66, 0x77, 0x88, 0x11, 0x22, 0x33, 0x44, 0xEE, 0xEE, 0xEE, 0xEE, 0x99, 0xAA, 0xBB, 0xCC] := by
  decide +kernel

/-- VF-3: the swizzle runs across a line join. -/
theorem test_frame24_line_join :
    window 8 (exec .frame24 (inFlight tie (pixels [0x00112233, 0x00445566]) (command 0x23 0x1000 0x2000 1 2 4))) =
      some [0x55, 0x66, 0xEE, 0xEE, 0x11, 0x22, 0x33, 0x44] := by decide +kernel

/-- VE-1 to VE-3, VE-5 to VE-7, and V16-4, V24-5. -/
theorem test_line_checks :
    (status (exec .line16 (inFlight tie [] (command 0x12 0x1002 0x2000 4 0 0))) = some 0x306 ∧
      status (exec .line24 (inFlight tie [] (command 0x13 0x1000 0x2004 4 0 0))) = some 0x306 ∧
      status (exec .line16 (inFlight wide [] (command 0x12 0xFFFFFFFC 0x2000 2 0 0))) = some 0x406 ∧
      status (exec .line16 (inFlight tie [] (command 0x12 0x1000 0x1008 4 0 0))) = some 0x506) ∧
      status (exec .line16 (inFlight tie [] (command 0x12 0x1000 0x1010 4 0 0))) = some 0x2 ∧
      status (exec .line24 (inFlight tie [] (command 0x13 0x1002 0x2004 0 0 0))) = some 0x306 ∧
      status (exec .line16 (inFlight tie [] (command 0x12 0x1000 0x2000 0 0 0))) = some 0x2 ∧
      status (exec .line24 (inFlight tie [] (command 0x13 0x1000 0x2000 0 0 0))) = some 0x2 := by decide +kernel

/-- VE-4: the last source byte is the last byte of memory. VE-12: BUS. -/
theorem test_line_edges :
    status (exec .line16 (inFlight wide [] (command 0x12 0xFFFFFFF8 0x2000 2 0 0))) = some 0x2 ∧
      status (exec .line16 (inFlight tie [] (command 0x12 0x1000 0x3000 1 0 0))) = some 0x606 := by decide +kernel

/-- VE-8 to VE-11. -/
theorem test_frame_checks :
    status (exec .frame16 (inFlight tie [] (command 0x22 0x1002 0x2000 0 1 0))) = some 0x206 ∧
      status (exec .frame24 (inFlight tie [] (command 0x23 0x1000 0x2000 4 2 12))) = some 0x206 ∧
      status (exec .frame24 (inFlight tie [] (command 0x23 0x1000 0x2000 4 2 18))) = some 0x306 ∧
      status (exec .frame16 (inFlight tie [] (command 0x22 0x1000 0x2000 4 0 16))) = some 0x206 := by decide +kernel

/-- VP-12: the result word, the divisor and the total. -/
theorem test_pllsyn_exact :
    (after (exec .pllsyn (inFlight tie [] (pllCommand 62500000 1000)))).map
      (fun t => (t.status.word, t.regs.pllCfg, t.regs.pllDiv, t.regs.pllTotal)) =
      some (0x2, 0x132, 8, 1000) := by decide +kernel

/-- VP-4: all six registers, with a negative adjustment. -/
theorem test_pllsyn_adjusted :
    (after (exec .pllsyn (inFlight { tie with pll := psetVp4 } [] (pllCommand 25175000 800)))).map (fun t => t.regs) =
      some { Regs.zero with
        cmd := 0x30, pllCfg := 0x3158, pllDiv := 0x23, pllClk := 0x17FA649, pllAdj := 0xFFFFFFFF, pllTotal := 0x31F,
        pllPpm := 0x1B } := by decide +kernel

/-- VQ-1 to VQ-11, the functions PLLSYN is made of. -/
theorem test_pll_functions :
    ppm 2000001 2 1000000 = 0 ∧ ppm 1999999 2 1000000 = 1 ∧ ppm 1000000 1 1000001 = 1 ∧ ppm 1000000 1 999999 = 1 ∧
      ppm 880000000 35 25143531 = 27 ∧ ppm 880000000 35 25175000 = 1277 ∧
      [624999999, 625000000, 749999999, 750000000, 875000000, 1000000000].map (band psetB) = [0, 1, 1, 2, 3, 3] ∧
      adjustedClock 25175000 800 799 = 25143531 ∧ adjustedClock 25175000 800 801 = 25206468 ∧
      vco psetB 2 121 = 605000000 ∧ adjSeq[0]? = some 0 ∧ adjSeq[1]? = some (-1) ∧ adjSeq[2]? = some 1 ∧
      adjSeq[19]? = some (-10) ∧ adjSeq[20]? = some 10 := by decide +kernel

/-! ### Registers and steps -/

/-- P6: a CMD write while BUSY is lost and leaves DONE and OVR. -/
theorem test_overrun_is_reported :
    status ((inFlight tie [] (command 0x12 0x1000 0x2000 0 0 0)).writeReg .cmd 0).engineStep = some 0xA := by
  decide +kernel

/-- P4: `clr` after an error leaves STATUS zero. -/
theorem test_clr :
    ({ State.resetOf tie with status := { Status.zero with done := true, err := true, errCode := .align } }.writeReg
      .status 0xE).status.word = 0 := by decide

/-- The first command after reset is the one placed. -/
theorem test_first_command_after_reset :
    status (step (State.reset.withFetchWord 32 0x00)) = some 0x2 ∧
      status (step (State.reset.withFetchWord 32 0x22)) = some 0x206 ∧
      status (step (State.reset.withFetchWord 32 0x30)) = some 0x706 := by decide +kernel

/-! ### Witnesses: concrete states that meet the hypotheses of the statements -/

theorem witness_EncodedCommandsDecodeBack : Instr.wellFormed true .pllsyn = true ∧ Instr.wellFormed false .nop = true := by
  decide

def nopBusy (host : List HostStep) (sched : List Agent) : State :=
  { inFlight tie [] (command 0 0 0 0 0 0) with host := host, sched := sched }

/-- The three ways the turn comes to the engine, and an illegal word. -/
theorem witness_EngineStepRunsLatchedCommand :
    (∀ x ∈ [(nopBusy [] [.host], [Agent.host]), (nopBusy [.wait] [], []), (nopBusy [.wait] [.engine, .host], [.host])],
      x.1.status.busy = true ∧
        (x.1.host = [] ∧ x.2 = x.1.sched ∨ x.1.host ≠ [] ∧ (x.1.sched = [] ∧ x.2 = [] ∨ x.1.sched = .engine :: x.2)) ∧
        decode x.1.tie.pllPresent x.1.latched.cmd = .ok .nop) ∧
      decode tie.pllPresent 0x11 = .error .unknownOp := by decide

theorem witness_HostStepRunsPendingAccess :
    ((State.resetOf tie).status.busy = false ∧ (State.resetOf tie).host = []) ∧
    ({ State.resetOf tie with host := [.wait] }.host = .wait :: [] ∧
        { State.resetOf tie with host := [.wait] }.status.busy = false) ∧
      (nopBusy [.wait] [.host]).host = .wait :: [] ∧ (nopBusy [.wait] [.host]).status.busy = true ∧
        (nopBusy [.wait] [.host]).sched = .host :: [] := by decide

theorem witness_PlacedWordRunsNext :
    decode (nopBusy [.wait] []).tie.pllPresent (BitVec.ofNat 32 0x12) = .ok .line16 ∧ 0x12 < 2 ^ 32 ∧
      decode (State.resetOf noPll).tie.pllPresent (BitVec.ofNat 32 0x23) = .ok .frame24 := by decide

theorem witness_IllegalWordIsIssuedAndFails :
    ∀ x ∈ [(tie, 0x112#32), (tie, 0xFFFFFFFF#32), (noPll, 0x30#32)],
      x.2 ∉ [0x00000000#32, 0x00000012#32, 0x00000013#32, 0x00000022#32, 0x00000023#32] ∧
        (x.2 = 0x00000030#32 → x.1.pllPresent = false) ∧ (State.resetOf x.1).status.busy = false := by decide

theorem witness_BusyChangesOnlyByIssueEngineOrReset :
    (after (step { State.resetOf tie with host := [.cmd tie .nop] })).map (fun t => t.status.busy) = some true ∧
      (after (step (nopBusy [] []))).map (fun t => t.status.busy) = some false ∧
      (after (step (nopBusy [.reset] [.host]))).map (fun t => t.status.busy) = some false := by decide +kernel

theorem witness_CommandEndsWithinSchedule :
    (nopBusy [] []).status.busy = true ∧ (nopBusy [.wait, .wait] [.host, .host]).status.busy = true := by decide

theorem witness_NopCompletes : (State.resetOf tie).status.busy = false ∧ (State.resetOf tie).status.ovr = false := by
  decide

/-- A line of four pixels, an empty line, a line whose window touches its source, and one at the end of memory. -/
def lines (w : Word) : List State :=
  [inFlight tie (pixels [0x00FF0000, 0x0000FF00, 0x000000FF, 0x00FFFFFF]) (command w 0x1000 0x2000 4 0 0),
    inFlight tie [] (command w 0x1000 0x2000 0 0 0), inFlight tie [] (command w 0x1000 0x1010 4 0 0),
    inFlight wide [] (command w 0xFFFFFFF8 0x2000 2 0 0)]

theorem witness_Line16Converts :
    ∀ s ∈ lines 0x12, s.mem.Wf ∧ s.tie.conv = .spec ∧ LineFits 2 s ∧ LineAdmitted 2 s := by decide +kernel

theorem witness_Line24Converts :
    ∀ s ∈ lines 0x13, s.mem.Wf ∧ s.tie.conv = .spec ∧ LineFits 3 s ∧ LineAdmitted 3 s := by decide +kernel

/-- Two rows with padding, one pixel in two rows, and a pitch whose padding lies past the end of memory. -/
def frames (w : Word) : List State :=
  [inFlight tie (pixels [0x00112233, 0x00445566, 0, 0, 0x00778899, 0x00AABBCC]) (command w 0x1000 0x2000 2 2 16),
    inFlight tie [] (command w 0x1000 0x2000 1 2 4), inFlight wide [] (command w 0xFFFFFFFC 0x2000 1 1 0xFFFFFFFC)]

theorem witness_Frame16Converts :
    ∀ s ∈ frames 0x22, s.mem.Wf ∧ s.tie.conv = .spec ∧ FrameFits 2 s ∧ FrameAdmitted 2 s := by decide +kernel

theorem witness_Frame24Converts :
    ∀ s ∈ frames 0x23, s.mem.Wf ∧ s.tie.conv = .spec ∧ FrameFits 3 s ∧ FrameAdmitted 3 s := by decide +kernel

theorem witness_ConversionsRunThePseudocode :
    (∀ s ∈ lines 0x12, s.tie.conv = .spec ∧ (LineFits 2 s ∧ LineAdmitted 2 s) ∧ LineFits 3 s ∧ LineAdmitted 3 s) ∧
      ∀ s ∈ frames 0x22, s.tie.conv = .spec ∧ (FrameFits 2 s ∧ FrameAdmitted 2 s) ∧ FrameFits 3 s ∧ FrameAdmitted 3 s := by
  refine ⟨fun s hs => ⟨?_, ?_, ?_⟩, fun s hs => ⟨?_, ?_, ?_⟩⟩ <;> revert s <;> decide +kernel

/-- VE-1, VE-2, VE-3 and VE-5, with the operands one step inside each limit beside them. -/
theorem witness_LineErrorsInOrder :
    let st := fun (src dst w : Word) => inFlight tie [] (command 0x12 src dst w 0 0)
    ¬ LineAligned (st 0x1002 0x2000 4) ∧ ¬ LineAligned (st 0x1000 0x2004 4) ∧ LineAligned (st 0xFFFFFFFC 0x2000 2) ∧
      (∀ b ∈ [2, 3], let s := st 0xFFFFFFFC 0x2000 2; ¬ InRange (S s) (4 * W s) (D s) (b * W s)) ∧
      (∀ b ∈ [2, 3], let s := st 0x1000 0xFFFFFFF8 5; LineAligned s ∧ ¬ InRange (S s) (4 * W s) (D s) (b * W s)) ∧
      (∀ b ∈ [2, 3], let s := st 0x1000 0x1008 4
        LineAligned s ∧ InRange (S s) (4 * W s) (D s) (b * W s) ∧ Meets (S s) (4 * W s) (D s) (b * W s)) ∧
      ∀ b ∈ [2, 3], let s := st 0x1000 0x1010 4; ¬ Meets (S s) (4 * W s) (D s) (b * W s) := by decide +kernel

/-- VE-8 to VE-11, a frame past the end of memory, and a frame over its own source. -/
theorem witness_FrameErrorsInOrder :
    let st := fun (src dst w h p : Word) => inFlight tie [] (command 0x22 src dst w h p)
    (¬ FrameDims (st 0x1002 0x2000 0 1 0) ∧ ¬ FrameDims (st 0x1000 0x2000 4 2 12) ∧
      ¬ FrameDims (st 0x1000 0x2000 4 0 16)) ∧
      (FrameDims (st 0x1000 0x2000 4 2 18) ∧ ¬ FrameAligned (st 0x1000 0x2000 4 2 18)) ∧
      (∀ b ∈ [2, 3], let s := st 0xFFFFFFF8 0x2000 1 2 8
        FrameDims s ∧ FrameAligned s ∧ ¬ InRange (S s) (frameSpan s) (D s) (b * W s * H s)) ∧
      ∀ b ∈ [2, 3], let s := st 0x1000 0x1010 4 2 16
        FrameDims s ∧ FrameAligned s ∧ InRange (S s) (frameSpan s) (D s) (b * W s * H s) ∧
          Meets (S s) (frameSpan s) (D s) (b * W s * H s) := by decide +kernel

/-- One written byte past the admitted range, and one source byte before it. -/
theorem witness_BusErrorFreesTheWrittenSet :
    let line := inFlight tie [] (command 0x12 0x1000 0x2FF8 5 0 0)
    let frame := inFlight tie [] (command 0x22 0xFFC 0x2000 1 2 4)
    line.mem.Wf ∧ (LineFits 2 line ∧ ¬ LineAdmitted 2 line) ∧ (LineFits 3 line ∧ ¬ LineAdmitted 3 line) ∧
      frame.mem.Wf ∧ (FrameFits 2 frame ∧ ¬ FrameAdmitted 2 frame) ∧ FrameFits 3 frame ∧ ¬ FrameAdmitted 3 frame := by
  refine ⟨?_, ?_, ?_, ?_, ?_, ?_⟩ <;> decide +kernel

/-- Every conversion answers a next state, and is in flight. -/
theorem witness_ConversionsWriteOnlyTheWrittenSet :
    ∀ i ∈ conversions, let s := inFlight tie [] (command (encode i) 0x1000 0x2000 2 1 8)
      (after (exec i s)).isSome = true ∧ (conversionOf i s.latched).isSome = true ∧ ¬ Written 0x2000 4 0x2000 := by
  decide +kernel

theorem witness_WrittenSetInItsWindow :
    0x200C ∈ (Conversion.mk 0x1000 0x2000 3 1 0 3).writtenSet ∧ Written 0x2000 9 0x200C ∧ (16 % 8 = 0 ∧ 0x2000 ≤ 0x200F ∧ 0x200F < 0x2000 + up8 16) ∧
      (12 - 8 * (12 / 8) ≤ 4 ∧ 3 < 4) ∧
      ∀ i ∈ conversions, let s := inFlight tie [] (command (encode i) 0x1000 0x2000 2 1 8)
        ∃ c, conversionOf i s.latched = some c ∧ (after (exec i s)).isSome = true ∧ c.dst ≤ 0x2000 ∧
          0x2000 < c.dst + up8 (c.bpp * c.width * c.height) := by
  refine ⟨by decide, by decide, by decide, by decide, fun i hi => ?_⟩
  simp only [conversions, List.mem_cons, List.not_mem_nil, or_false] at hi
  rcases hi with rfl | rfl | rfl | rfl <;> exact ⟨_, rfl, by decide +kernel, by decide +kernel, by decide +kernel⟩

theorem witness_OneLineFrameIsLine :
    ∀ s ∈ [inFlight tie [] (command 0x22 0x1000 0x2000 1 1 4), inFlight tie [] (command 0x22 0x1002 0x2000 4 1 64)],
      H s = 1 ∧ W s ≠ 0 ∧ 4 * W s ≤ P s ∧ P s % 4 = 0 := by decide

theorem witness_FrameIsItsLines :
    let s := inFlight tie [] (command 0x22 0x1000 0x2000 4 2 16)
    let t := inFlight tie [] (command 0x23 0x1000 0x2000 8 2 40)
    (FrameFits 2 s ∧ FrameAdmitted 2 s ∧ 2 * W s % 8 = 0) ∧ FrameFits 3 t ∧ FrameAdmitted 3 t ∧ 3 * W t % 8 = 0 := by
  decide +kernel

/-- Two memories that agree on the source and differ elsewhere. -/
theorem witness_ConversionsAreRepeatable :
    ∀ i ∈ conversions,
      let s := inFlight tie (pixels [0x00112233, 0x00445566]) (command (encode i) 0x1000 0x2000 2 1 8)
      let u := { s with mem := s.mem.write 0x1FFF 1 }
      s.mem.Wf ∧ u.mem.Wf ∧ s.latched = u.latched ∧ s.tie = u.tie ∧ s.mem ≠ u.mem ∧
        (conversionOf i s.latched).map (fun c => (c.src, c.pitch * (c.height - 1), c.width)) = some (0x1000, 0, 2) ∧
        (∀ k < 8, s.mem.read (0x1000 + k) = u.mem.read (0x1000 + k)) ∧ status (exec i s) = some 0x2 ∧
        status (exec i u) = some 0x2 := by decide +kernel

/-- VP-12, at the first adjustment, and VP-4, at the second. -/
theorem witness_PllsynWritesFirstAccepted :
    (PllReady (inFlight tie [] (pllCommand 62500000 1000)) ∧ adjustments = [] ++ 0 :: adjustments.tail ∧
      Accepts (inFlight tie [] (pllCommand 62500000 1000)) 0 ⟨1, 50, 8, 500000000, 0⟩) ∧
      PllReady (inFlight { tie with pll := psetVp4 } [] (pllCommand 25175000 800)) ∧
      adjustments = [0] ++ (-1) :: adjustments.tail.tail ∧
      (∀ a ∈ [(0 : Int)], Rejects (inFlight { tie with pll := psetVp4 } [] (pllCommand 25175000 800)) a) ∧
      Accepts (inFlight { tie with pll := psetVp4 } [] (pllCommand 25175000 800)) (-1) ⟨1, 88, 35, 880000000, 27⟩ := by
  refine ⟨by decide +kernel, by decide +kernel, by decide, fun a ha => tryAdjustment_none_iff.1 ?_, by decide +kernel⟩
  rw [List.mem_singleton.1 ha]
  decide +kernel

/-- PSET-B with one of its divisors: VP-13's least error, 16, is a bound for it too. -/
def psetVp13 : PllParams := { psetB with divisors := [8] }

/-- VP-13. -/
theorem witness_PllsynUnsatisfiable :
    PllReady (inFlight { tie with pll := psetVp13 } [] (pllCommand 63000000 1000)) ∧
      ∀ a ∈ adjustments, Rejects (inFlight { tie with pll := psetVp13 } [] (pllCommand 63000000 1000)) a := by
  have h : ∀ a ∈ adjustments, tryAdjustment ppm psetVp13 63000000 1000 a = none := by decide +kernel
  exact ⟨by decide +kernel, fun a ha => tryAdjustment_none_iff.1 (h a ha)⟩

/-- VP-6, VP-8 and VP-9. -/
theorem witness_PllsynArgumentChecks :
    let st := fun (t total : Word) => inFlight tie [] (pllCommand t total)
    (st 0 800).tie.pllPresent = true ∧ (st 0 800).tie.pll.Wf ∧ clk (st 0 800) = 0 ∧ tot (st 65000000 0) = 0 ∧
      clk (st 200000001 100) ≠ 0 ∧ tot (st 200000001 100) ≠ 0 ∧
      (st 200000001 100).tie.pll.clockMax < clk (st 200000001 100) := by decide

theorem witness_PllsynIllegalWhenAbsent : (inFlight noPll [] (pllCommand 1 1)).tie.pllPresent = false := by decide

theorem witness_PllsynRefusesBadParameters :
    let s := inFlight { tie with pll := { psetB with divisors := [] } } [] (pllCommand 1 1)
    s.tie.pllPresent = true ∧ ¬ s.tie.pll.Wf ∧ clk s ≠ 0 ∧ tot s ≠ 0 := by decide

theorem witness_PllsynFrame :
    (after (exec .pllsyn (inFlight tie [] (pllCommand 62500000 1000)))).isSome = true ∧
      (after (exec .pllsyn (inFlight noPll [] (pllCommand 1 1)))).isSome = true := by decide +kernel

theorem witness_PllsynErrorKeepsResult :
    (inFlight tie [] (pllCommand 0 800)).status.err = false ∧
      (after (exec .pllsyn (inFlight tie [] (pllCommand 0 800)))).map (fun t => t.status.err) = some true := by decide +kernel

/-- No pair in range, and VP-12. -/
theorem witness_SearchFindsFirstMinimum :
    { psetB with vcoMin := 1, vcoMax := 2 }.Wf ∧ search ppm { psetB with vcoMin := 1, vcoMax := 2 } 1 = none ∧ psetB.Wf ∧
      search ppm psetB 62500000 = some ⟨1, 50, 8, 500000000, 0⟩ ∧ Visited psetB 2 128 4 := by decide +kernel

theorem witness_PllsynResultIsLegal :
    (inFlight tie [] (pllCommand 62500000 1000)).status.err = false ∧
      (after (exec .pllsyn (inFlight tie [] (pllCommand 62500000 1000)))).map (fun t => t.status.err) = some false := by
  decide +kernel

/-- E3, and the divisors at both edges of the VCO range. -/
theorem witness_ExactTargetsHaveNoError :
    let s := inFlight { tie with pll := psetE3 } [] (pllCommand 20000000 800)
    (PllReady s ∧ Visited s.tie.pll 1 50 25 ∧ s.tie.pll.fRef * 50 / 1 = 25 * clk s) ∧
      ∀ dv ∈ [25, 50], psetE3.Wf ∧ dv ∈ psetE3.divisors ∧ dv ≤ 64 ∧ psetE3.vcoMin ≤ 2 * dv * psetE3.fRef ∧
        2 * dv * psetE3.fRef ≤ psetE3.vcoMax := by decide +kernel

/-- The edges themselves, and one below each. -/
theorem witness_BandCodeOfFrequency :
    psetB.bandEdge1 ≤ psetB.bandEdge2 ∧ psetB.bandEdge2 ≤ psetB.bandEdge3 ∧ 624999999 < psetB.bandEdge1 ∧
      psetB.bandEdge1 ≤ 625000000 ∧ 749999999 < psetB.bandEdge2 ∧ psetB.bandEdge2 ≤ 750000000 ∧
      874999999 < psetB.bandEdge3 ∧ psetB.bandEdge3 ≤ 875000000 := by decide

theorem witness_VcoReadingsAgreeForEvenReference : psetB.fRef % 2 = 0 ∧ (2 = 1 ∨ 2 = 2) := by decide

theorem witness_CommandsEndPrecisely :
    (after (exec .nop (nopBusy [] []))).isSome = true ∧
      (inFlight tie [] (command 0x12 0x1002 0x2000 4 0 0)).status.err = false ∧
      (after (exec .line16 (inFlight tie [] (command 0x12 0x1002 0x2000 4 0 0)))).map (fun t => t.status) =
        some (endedWith .align (inFlight tie [] (command 0x12 0x1002 0x2000 4 0 0))) := by
  decide +kernel

/-- One error for each kind of command. -/
theorem witness_ErrorCodesOfCommands :
    ∀ x ∈ [(Instr.line24, inFlight tie [] (command 0x13 0x1000 0x2004 4 0 0)),
      (.frame16, inFlight tie [] (command 0x22 0x1000 0x2000 0 1 0)), (.pllsyn, inFlight tie [] (pllCommand 0 0))],
      x.2.status.err = false ∧ (after (exec x.1 x.2)).map (fun t => t.status.err) = some true := by decide +kernel

def overrun (host : List HostStep) : State :=
  { State.resetOf tie with host := host, status := { Status.zero with ovr := true } }

theorem witness_OverrunIsSticky :
    (nopBusy [] []).status.busy = true ∧ (overrun []).status.ovr = true ∧
      (after (step (overrun [.clr tie]))).map (fun t => t.status.ovr) = some false ∧
      (after (step (overrun [.reset]))).map (fun t => t.status.ovr) = some false := by decide +kernel

/-- A conversion in flight, and a PLLSYN, for which nothing is. -/
theorem witness_EngineStepTouchesOnlyItsOwn :
    let s := inFlight tie [] (command 0x13 0x1000 0x2000 1 0 0)
    let t := inFlight tie [] (pllCommand 62500000 1000)
    (s.status.busy = true ∧ (after s.engineStep).isSome = true ∧ s.inFlight = some ⟨0x1000, 0x2000, 1, 1, 0, 3⟩ ∧
      ¬ (0x2000 ≤ 0x2008 ∧ 0x2008 < 0x2000 + up8 (3 * 1 * 1)) ∧ s.latched.cmd ≠ 0x30) ∧
      t.status.busy = true ∧ (after t.engineStep).isSome = true ∧ t.inFlight = none := by decide +kernel

theorem witness_MemoryReadsWhatWasWritten :
    Memory.Wf [(5, 1), (7, 2)] ∧ 2 ^ 32 - 1 < 2 ^ 32 ∧ Memory.write [(5, 1)] 5 0 = Memory.write [] 5 0 ∧
      Memory.Wf (Memory.write [(5, 1)] 5 0) := by decide

/-- Both ends of the window. -/
theorem witness_OnlyAlignedWordAccesses :
    (windowBase tie ≤ 64 ∧ 64 < windowBase tie + 64 ∧ 16 ≠ 32) ∧
      (windowBase tie ≤ 127 ∧ 127 < windowBase tie + 64 ∧ 127 % 4 ≠ 0) ∧ 63 < windowBase tie ∧
      windowBase tie + 64 ≤ 128 := by decide

/-- A step that answers a next state, and one that is refused. -/
theorem witness_IssueLatchesParameters :
    (State.resetOf tie).status.busy = false ∧ (after (nopBusy [] []).engineStep).isSome = true ∧
      ∃ r, (inFlight { tie with pll := { psetB with divisors := [] } } [] (pllCommand 1 1)).engineStep = .refused r := by
  refine ⟨by decide, by decide, .badConfiguration, ?_⟩
  rfl

theorem witness_ParameterRegistersReadBack :
    Reg.srcPitch ∈ convRegs ∧ (State.resetOf tie).tie.pllPresent = true ∧ Reg.baseTotal ∈ [Reg.targetClk, .baseTotal] := by
  decide

theorem witness_ReservedSlotsReadZero : (State.resetOf noPll).tie.pllPresent = false ∧ Reg.pllPpm ∈ pllRegs := by decide

/-- VP-12 as a step, and reset after it. -/
theorem witness_ResultRegistersOnlyByPllsyn :
    Reg.pllAdj ∈ readOnlyRegs ∧
      (after (step (inFlight tie [] (pllCommand 62500000 1000)))).map (fun t => t.regs.pllCfg) = some 0x132 ∧
      (after (step { State.resetOf tie with host := [.reset], regs := { Regs.zero with pllDiv := 8 } })).map
        (fun t => t.regs.pllDiv) = some 0 := by decide +kernel

/-- A reset with nothing in flight, and one that aborts a conversion. -/
theorem witness_ResetAbortsTheCommand :
    let s := inFlight tie (pixels [0x00112233]) (command 0x13 0x1000 0x2000 1 0 0)
    (State.resetOf tie).mem.Wf ∧ (State.resetOf tie).inFlight = none ∧ s.mem.Wf ∧
      s.inFlight = some ⟨0x1000, 0x2000, 1, 1, 0, 3⟩ ∧ Written 0x2000 (3 * 1 * 1) 0x2006 ∧
      Written 0x2000 (3 * 1 * 1) 0x2004 ∧ ¬ Written 0x2000 (3 * 1 * 1) 0x2007 := by decide +kernel

/-- The engine's turn, the host's turn while BUSY and while idle, and neither. -/
theorem witness_AgentsMoveOnlyWhenEnabled :
    (nopBusy [] [.host]).turn = .engine [.host] ∧ (nopBusy [.wait] [.host]).turn = .host .wait [] [] ∧
      { State.resetOf tie with host := [.wait] }.turn = .host .wait [] [] ∧
      (State.resetOf tie).status.busy = false ∧ (State.resetOf tie).host = [] := by decide

/-- The last byte of the window and the byte after it; a source byte; a padding byte, the last byte of the span, and the
byte after it. -/
theorem witness_HostLeavesOwnedBuffers :
    let s := inFlight tie [] (command 0x23 0x1000 0x2000 1 2 8)
    s.status.busy = true ∧ decode s.tie.pllPresent s.latched.cmd = .ok .frame24 ∧
      conversionOf .frame24 s.latched = some ⟨0x1000, 0x2000, 1, 2, 8, 3⟩ ∧
      (0x2000 ≤ 0x2007 ∧ 0x2007 < 0x2000 + up8 (3 * 1 * 2)) ∧ ¬ 0x2008 < 0x2000 + up8 (3 * 1 * 2) ∧
      (∃ y < 2, ∃ x < 1, ∃ j < 4, 0x100B = 0x1000 + y * 8 + 4 * x + j) ∧
      (0x1000 ≤ 0x1004 ∧ 0x100B < 0x1000 + ((2 - 1) * 8 + 4 * 1)) ∧ ¬ 0x100C < 0x1000 + ((2 - 1) * 8 + 4 * 1) := by
  decide +kernel

/-- U4: the padding between two rows is refused, the byte after the span is not. -/
theorem test_padding_is_owned :
    let s := inFlight tie [] (command 0x23 0x1000 0x2000 1 2 8)
    s.owned 0x1004 = true ∧ s.owned 0x100B = true ∧ s.owned 0x100C = false ∧ s.owned 0xFFF = false := by decide +kernel

theorem witness_HostMemoryWhenIdle :
    (State.resetOf tie).inFlight = none ∧ (nopBusy [] []).inFlight = none ∧ 2 ^ 32 - 1 < 2 ^ 32 ∧ 2 ^ 32 ≤ 2 ^ 32 := by
  decide

theorem witness_WaitPollsStatus :
    (nopBusy [] []).status.word.getLsbD 0 = true ∧ (State.resetOf tie).status.word.getLsbD 0 = false := by decide

theorem witness_TieOffsNeverChange :
    (after (step (nopBusy [] []))).isSome = true ∧ (after (step (nopBusy [.wait] [.host]))).isSome = true := by
  decide +kernel

theorem witness_ResetMeetsInvariant : tie.pll.Wf ∧ noPll.pll.Wf := by decide

/-- A conversion in flight meets the invariant, and its step answers a next state. -/
theorem witness_StepKeepsInvariant :
    let s := inFlight tie (pixels [0x00112233]) (command 0x13 0x1000 0x2000 1 0 0)
    s.Inv ∧ (after (step s)).isSome = true := by
  refine ⟨⟨by decide +kernel, ⟨by decide, by decide⟩, fun _ => rfl, .inl (by unfold State.NoResult; decide),
    fun h => absurd h (by decide), by decide⟩, by decide +kernel⟩

end Sys2Proof.Tests
end

section
/-! PROOFS. The two agents and what the engine step leaves alone (00_scope.md R10, R11, R17, R18). -/

namespace Sys2Proof

/-! ### The decoder -/

/-- A word is its RSVD and OP fields (30_encoding.md R70). -/
theorem rsvdField_append_opField (w : Word) : rsvdField w ++ opField w = w :=
  BitVec.extractLsb'_append_extractLsb' (w := 24) (len := 8) (x := w)

/-- Only the word of a command decodes to it (30_encoding.md R72, R76). -/
theorem eq_encode_of_decode {pllPresent : Bool} {w : Word} {i : Instr} (h : decode pllPresent w = .ok i) :
    w = encode i := by
  have hw := rsvdField_append_opField w
  unfold decode at h
  split_ifs at h with hr <;> cases h <;> rw [not_not.1 hr, ‹opField w = _›] at hw <;> exact hw.symm

end Sys2Proof

namespace Sys2Proof.Machine

/-! ### Whose turn it is, and the step it makes (00_scope.md R17) -/

theorem turn_eq_idle_iff {s : State} : s.turn = .idle ↔ s.status.busy = false ∧ s.host = [] := by
  refine ⟨turn_idle, ?_⟩
  rintro ⟨hb, hh⟩
  simp only [State.turn, hb, hh]

theorem turn_eq_engine_iff {s : State} {q : List Agent} :
    s.turn = .engine q ↔ s.status.busy = true ∧
      (s.host = [] ∧ q = s.sched ∨ s.host ≠ [] ∧ (s.sched = [] ∧ q = [] ∨ s.sched = .engine :: q)) := by
  constructor
  · intro h
    unfold State.turn at h
    split at h <;> simp_all
  · rintro ⟨hb, ⟨hh, rfl⟩ | ⟨hh, hs⟩⟩
    · simp only [State.turn, hb, hh]
    · obtain ⟨op, rest, hh⟩ := List.exists_cons_of_ne_nil hh
      rcases hs with ⟨hs, rfl⟩ | hs <;> simp only [State.turn, hb, hh, hs]

theorem turn_eq_host_iff {s : State} {op : HostStep} {rest : List HostStep} {q : List Agent} :
    s.turn = .host op rest q ↔
      s.host = op :: rest ∧ (s.status.busy = false ∧ q = s.sched ∨ s.status.busy = true ∧ s.sched = .host :: q) := by
  refine ⟨turn_host, ?_⟩
  rintro ⟨hh, ⟨hb, rfl⟩ | ⟨hb, hs⟩⟩
  · simp only [State.turn, hb, hh]
  · simp only [State.turn, hb, hh, hs]

theorem step_of_turn_idle {s : State} (h : s.turn = .idle) : step s = .next s := by
  rw [step, State.agentStep, h]

theorem step_of_turn_engine {s : State} {q : List Agent} (h : s.turn = .engine q) :
    step s = State.engineStep { s with sched := q } := by
  rw [step, State.agentStep, h]

theorem step_of_turn_host {s : State} {op : HostStep} {rest : List HostStep} {q : List Agent}
    (h : s.turn = .host op rest q) : step s = State.hostStep op { s with host := rest, sched := q } := by
  rw [step, State.agentStep, h]

/-! ### The engine step (10_state.md R34) -/

theorem engineStep_of_decode_ok {s : State} {i : Instr} (h : decode s.tie.pllPresent s.latched.cmd = .ok i) :
    s.engineStep = exec i s := by
  rw [State.engineStep, h]

theorem engineStep_of_decode_error {s : State} {e : DecodeError}
    (h : decode s.tie.pllPresent s.latched.cmd = .error e) : s.engineStep = .next (s.raiseError .illegalCmd) := by
  rw [State.engineStep, h]

theorem inFlight_of_decode_ok {s : State} {i : Instr} (hb : s.status.busy = true)
    (h : decode s.tie.pllPresent s.latched.cmd = .ok i) : s.inFlight = conversionOf i s.latched := by
  simp only [State.inFlight, hb, if_true, h]

/-! ### What a command that ends leaves alone (00_scope.md R18) -/

/-- A command changes memory in the written set of its operands only. -/
theorem Ending.mem_read_other {i : Instr} {s t : State} {a : Nat} (h : Ending i s t)
    (ha : ∀ c, conversionOf i s.latched = some c → a ∉ c.writtenSet) : t.mem.read a = s.mem.read a := by
  cases h with
  | nop | error | found => rfl
  | converted c f hc hf hr => exact State.storeStream_read_other hf (ha c hc)
  | bus c hc hr => exact Memory.read_writeFree_other (ha c hc)

/-- A command changes no register but the six result registers. -/
theorem Ending.regs_eq {i : Instr} {s t : State} (h : Ending i s t) :
    t.regs = { s.regs with
      pllCfg := t.regs.pllCfg, pllDiv := t.regs.pllDiv, pllClk := t.regs.pllClk, pllAdj := t.regs.pllAdj,
      pllTotal := t.regs.pllTotal, pllPpm := t.regs.pllPpm } := by
  cases h <;> rfl

/-- A command other than PLLSYN changes no register. -/
theorem Ending.regs_eq_of_ne_pllsyn {i : Instr} {s t : State} (h : Ending i s t) (hi : i ≠ .pllsyn) :
    t.regs = s.regs := by
  cases h with
  | found r hp => exact absurd hp hi
  | nop | error | converted | bus => rfl

end Sys2Proof.Machine

namespace Sys2Proof.Claims

open Sys2Proof.Machine

/-- Settles O40: an engine step that answers a next state is ILLEGAL_CMD or one of the endings of the command in flight,
whose written set lies in its window. -/
theorem engineStepTouchesOnlyItsOwn : Obligations.EngineStepTouchesOnlyItsOwn := by
  intro s t hb h
  obtain ⟨-, -, hlatched, htie, hhost, hsched, hseen⟩ := engineStep_keeps h
  rcases engineStep_next h with rfl | ⟨i, hi, hx⟩
  · exact ⟨fun _ _ => rfl, rfl, fun _ => rfl, rfl, rfl, rfl, rfl, rfl⟩
  · have hend := exec_next hx
    refine ⟨fun a ha => hend.mem_read_other fun c hc hmem => ?_, hend.regs_eq, fun hcmd => ?_,
      hlatched, htie, hhost, hsched, hseen⟩
    · exact ha c (by rw [inFlight_of_decode_ok hb hi, hc]) (c.mem_window_of_mem_writtenSet hmem)
    · refine hend.regs_eq_of_ne_pllsyn ?_
      rintro rfl
      exact hcmd (eq_encode_of_decode hi)

/-- Settles O4: the three ways the turn comes to the engine are those of `turn_eq_engine_iff`. -/
theorem engineStepRunsLatchedCommand : Obligations.EngineStepRunsLatchedCommand := by
  intro s q hb hturn
  rw [step_of_turn_engine (turn_eq_engine_iff.2 ⟨hb, hturn⟩)]
  exact ⟨fun i hi => engineStep_of_decode_ok hi, fun e he => engineStep_of_decode_error he⟩

/-- Settles O5: each of the three situations fixes the turn. -/
theorem hostStepRunsPendingAccess : Obligations.HostStepRunsPendingAccess := by
  intro s
  refine ⟨fun hb hh => step_of_turn_idle (turn_eq_idle_iff.2 ⟨hb, hh⟩),
    fun op rest hh => ⟨fun hb => ?_, fun q hb hs => ?_⟩⟩
  · exact step_of_turn_host (turn_eq_host_iff.2 ⟨hh, .inl ⟨hb, rfl⟩⟩)
  · exact step_of_turn_host (turn_eq_host_iff.2 ⟨hh, .inr ⟨hb, hs⟩⟩)

/-- Settles O28: the decoder's row of PLLSYN and the command's first check both read `PLL_PRESENT`. -/
theorem pllsynIllegalWhenAbsent : Obligations.PllsynIllegalWhenAbsent := by
  intro s habsent
  constructor
  · rw [habsent]; rfl
  · rw [exec, execPllsyn, if_pos habsent, raiseError_eq]

/-- Settles O29: the refusal stands after the check for BAD_CLOCK. -/
theorem pllsynRefusesBadParameters : Obligations.PllsynRefusesBadParameters := by
  intro s hpresent hbad hclk htot
  have hargs : ¬ (s.latched.targetClk.toNat = 0 ∨ s.latched.baseTotal.toNat = 0) := not_or.2 ⟨hclk, htot⟩
  rw [exec, execPllsyn, if_neg (by simp [hpresent]), if_neg hargs, if_pos hbad]

/-- Settles O53: an exhausted schedule gives a BUSY engine its turn; the entry `host` gives it to a host that has an access
pending. -/
theorem agentsMoveOnlyWhenEnabled : Obligations.AgentsMoveOnlyWhenEnabled := by
  refine ⟨fun s => ⟨fun hb => ⟨[], [], ?_⟩, ?_⟩, fun s => ⟨fun hh => ?_, ?_⟩, fun s q => turn_engine,
    fun s hb hh => step_of_turn_idle (turn_eq_idle_iff.2 ⟨hb, hh⟩), fun tie => ⟨rfl, rfl⟩⟩
  · refine turn_eq_engine_iff.2 ⟨hb, ?_⟩
    by_cases hh : s.host = []
    · exact .inl ⟨hh, rfl⟩
    · exact .inr ⟨hh, .inl ⟨rfl, rfl⟩⟩
  · rintro ⟨q, r, h⟩
    have hb := turn_engine h
    exact hb
  · obtain ⟨op, rest, hh⟩ := List.exists_cons_of_ne_nil hh
    cases hb : s.status.busy with
    | false => exact ⟨[], op, rest, [], turn_eq_host_iff.2 ⟨hh, .inl ⟨hb, rfl⟩⟩⟩
    | true => exact ⟨[.host], op, rest, [], turn_eq_host_iff.2 ⟨hh, .inr ⟨hb, rfl⟩⟩⟩
  · rintro ⟨q, op, rest, r, h⟩ hnil
    have hcons : s.host = op :: rest := (turn_host h).1
    simp [hnil] at hcons

end Sys2Proof.Claims
end

section
/-! PROOFS. The register window (10_state.md R22 to R36): what a host write to a register can do, what a step leaves of
BUSY and of the result registers, that the engine step reads only `L`, and the invariant of the machine. -/

namespace Sys2Proof.Machine

open Sys2Proof.Claims

/-! ### A CMD write (10_state.md R23, R33) -/

theorem writeReg_cmd_of_busy {s : State} (hb : s.status.busy = true) (w : Word) :
    s.writeReg .cmd w = { s with status := s.status.overrun } := by
  rw [State.writeReg, State.writeCmd, if_pos hb]

theorem writeReg_cmd_of_idle {s : State} (hb : s.status.busy = false) (w : Word) :
    s.writeReg .cmd w = s.issue w := by
  rw [State.writeReg, State.writeCmd, if_neg (by simp [hb])]

/-! ### Inversion of a host write to a register (10_state.md R22 to R33) -/

/-- The ways a host write of `w` to a register slot changes the state. A write that is ignored is `plain` with the
registers as they were. -/
inductive WriteEnding (s : State) (w : Word) : Reg → State → Prop
  | issue (hb : s.status.busy = false) : WriteEnding s w .cmd (s.issue w)
  | overrun (hb : s.status.busy = true) : WriteEnding s w .cmd { s with status := s.status.overrun }
  | clear : WriteEnding s w .status { s with status := s.status.clear w }
  | plain (r : Reg) (p : Regs) (hcmd : p.cmd = s.regs.cmd) (hres : SameResult s { s with regs := p })
      (hpll : s.tie.pllPresent = false → p.targetClk = s.regs.targetClk ∧ p.baseTotal = s.regs.baseTotal) :
      WriteEnding s w r { s with regs := p }

theorem WriteEnding.ignored (s : State) (w : Word) (r : Reg) : WriteEnding s w r s :=
  .plain r s.regs rfl (by simp [SameResult]) fun _ => ⟨rfl, rfl⟩

theorem WriteEnding.of_present {s : State} {w : Word} {r : Reg} {p : Regs} (hcmd : p.cmd = s.regs.cmd)
    (hres : SameResult s { s with regs := p }) :
    WriteEnding s w r (if s.tie.pllPresent then { s with regs := p } else s) := by
  cases hp : s.tie.pllPresent with
  | true => exact .plain r p hcmd hres fun h => by simp [hp] at h
  | false => exact .ignored s w r

theorem writeReg_ending (s : State) (r : Reg) (w : Word) : WriteEnding s w r (s.writeReg r w) := by
  cases r with
  | cmd =>
    cases hb : s.status.busy with
    | true => exact writeReg_cmd_of_busy hb w ▸ .overrun hb
    | false => exact writeReg_cmd_of_idle hb w ▸ .issue hb
  | status => exact .clear
  | srcAddr | dstAddr | width | height | srcPitch => exact .plain _ _ rfl (by simp [SameResult]) fun _ => ⟨rfl, rfl⟩
  | targetClk | baseTotal => exact .of_present rfl (by simp [SameResult])
  | pllCfg | pllDiv | pllClk | pllAdj | pllTotal | pllPpm | reserved => exact .ignored s w _

theorem WriteEnding.sameResult {s t : State} {w : Word} {r : Reg} (h : WriteEnding s w r t) : SameResult s t := by
  cases h with
  | plain _ _ _ hres _ => exact hres
  | issue | overrun | clear => simp [SameResult]

/-- A register write changes BUSY only by issuing a command. -/
theorem WriteEnding.busy_cases {s t : State} {w : Word} {r : Reg} (h : WriteEnding s w r t) :
    t.status.busy = s.status.busy ∨ r = .cmd ∧ t = s.issue w := by
  cases h with
  | issue => exact .inr ⟨rfl, rfl⟩
  | overrun | clear | plain => exact .inl rfl

/-! ### What a host step leaves of BUSY and of the result registers -/

theorem HostEnding.busy_cases {s t : State} {op : HostStep} (h : HostEnding s op t) :
    t.status.busy = s.status.busy ∨ (∃ v, op = .regWrite (windowBase s.tie) 32 v ∧ t = s.issue v) ∨ op = .reset := by
  cases h with
  | write r v =>
    rcases (writeReg_ending s r v).busy_cases with h | ⟨rfl, h⟩
    · exact .inl h
    · exact .inr (.inl ⟨v, rfl, h⟩)
  | wait => exact .inl (by rw [(hostWaits_keeps s).2.1])
  | memRead a => exact .inl (by rw [(hostReads_keeps s a).2.1])
  | read | memWrite => exact .inl rfl
  | reset => exact .inr (.inr rfl)

theorem sameResult_of_regs_eq {s t : State} (h : t.regs = s.regs) : SameResult s t := by simp [SameResult, h]

theorem HostEnding.sameResult {s t : State} {op : HostStep} (h : HostEnding s op t) (hop : op ≠ .reset) :
    SameResult s t := by
  cases h with
  | read | memWrite => exact sameResult_of_regs_eq rfl
  | write r v => exact (writeReg_ending s r v).sameResult
  | wait => exact sameResult_of_regs_eq (hostWaits_keeps s).1
  | memRead a => exact sameResult_of_regs_eq (hostReads_keeps s a).1
  | reset => exact absurd rfl hop

/-- Only a PLLSYN that found a configuration changes a result register (41_pll.md R152, R157). -/
theorem Ending.sameResult_or_found {i : Instr} {s t : State} (h : Ending i s t) :
    SameResult s t ∨ i = .pllsyn ∧ s.tie.pllPresent = true ∧ t.status = endedOk s := by
  cases h with
  | found r hi hp => exact .inr ⟨hi, hp, rfl⟩
  | nop | error | converted | bus => exact .inl (sameResult_of_regs_eq rfl)

/-! ### Legal values of STATUS (10_state.md R24) -/

theorem Status.legal_zero : Status.zero.Legal := by simp [Status.Legal, Status.zero]

theorem Status.legal_issued (t : Status) : t.issued.Legal := by simp [Status.Legal]

theorem Status.Legal.overrun {t : Status} (h : t.Legal) : t.overrun.Legal := h

theorem Status.Legal.completed {t : Status} (h : t.Legal) : t.completed.Legal := ⟨h.1, by simp⟩

theorem Status.legal_failed (t : Status) {code : ErrCode} (h : code ≠ .none) : (t.failed code).Legal := by
  simp [Status.Legal, h]

theorem Status.Legal.clear {t : Status} (h : t.Legal) (w : Word) : (t.clear w).Legal := by
  obtain ⟨hcode, hbusy⟩ := h
  constructor
  · cases hw : w.getLsbD 2 <;> simp [Status.clear, hw, hcode]
  · intro hb
    obtain ⟨hdone, herr⟩ := hbusy hb
    simp [Status.clear, hdone, herr]

/-! ### The invariant: what a change must respect to keep it -/

theorem State.latchMatches_of_idle {s : State} (h : s.status.busy = false) : s.LatchMatches := fun hb => by
  simp [h] at hb

/-- A change that leaves the build, the result registers and, where the search is absent, its parameters keeps the
invariant, if the memory, STATUS and `L` it leaves are legal. -/
theorem State.Inv.of_sameResult {s t : State} (h : s.Inv) (htie : t.tie = s.tie) (hres : SameResult s t)
    (hpll : s.tie.pllPresent = false → t.regs.targetClk = s.regs.targetClk ∧ t.regs.baseTotal = s.regs.baseTotal)
    (hmem : t.mem.Wf) (hstatus : t.status.Legal) (hlatch : t.LatchMatches) : t.Inv := by
  obtain ⟨h1, h2, h3, h4, h5, h6⟩ := hres
  refine ⟨hmem, hstatus, hlatch, result_legal_congr h.result_legal h1 h2 h3 h4 h5 h6 htie, fun habs => ?_,
    htie ▸ h.params_wf⟩
  rw [htie] at habs
  obtain ⟨hclk, htot⟩ := hpll habs
  have hzero := h.absent_zero habs
  simpa only [State.NoResult, hclk, htot, h1, h2, h3, h4, h5, h6] using hzero

/-- A change that leaves the build and the registers. -/
theorem State.Inv.of_regs_eq {s t : State} (h : s.Inv) (htie : t.tie = s.tie) (hregs : t.regs = s.regs)
    (hmem : t.mem.Wf) (hstatus : t.status.Legal) (hlatch : t.LatchMatches) : t.Inv :=
  h.of_sameResult htie (sameResult_of_regs_eq hregs) (fun _ => by simp [hregs]) hmem hstatus hlatch

/-- A change that leaves the build, the registers, STATUS and `L`. -/
theorem State.Inv.of_mem_wf {s t : State} (h : s.Inv) (htie : t.tie = s.tie) (hregs : t.regs = s.regs)
    (hstatus : t.status = s.status) (hlatched : t.latched = s.latched) (hmem : t.mem.Wf) : t.Inv :=
  h.of_regs_eq htie hregs hmem (hstatus ▸ h.status_legal) (by
    simpa only [State.LatchMatches, hregs, hstatus, hlatched] using h.latch_matches)

/-- No part of the invariant speaks of the host or of the schedule. -/
theorem State.Inv.with_agents {s : State} (h : s.Inv) (host : List HostStep) (sched : List Agent) :
    { s with host := host, sched := sched }.Inv := h.of_mem_wf rfl rfl rfl rfl h.mem_wf

theorem State.inv_of_zero {s : State} (hregs : s.regs = .zero) (hstatus : s.status = .zero) (hmem : s.mem.Wf)
    (hpll : s.tie.pll.Wf) : s.Inv := by
  have hno : s.NoResult := by simp [State.NoResult, hregs, Regs.zero]
  refine ⟨hmem, hstatus ▸ Status.legal_zero, State.latchMatches_of_idle (by rw [hstatus]; rfl), .inl hno,
    fun _ => ⟨?_, ?_, hno⟩, hpll⟩ <;> rw [hregs] <;> rfl

/-! ### The invariant is kept -/

theorem State.Inv.raiseError {s : State} (h : s.Inv) {code : ErrCode} (hc : code ≠ .none) : (s.raiseError code).Inv :=
  h.of_regs_eq rfl rfl h.mem_wf (Status.legal_failed _ hc) (State.latchMatches_of_idle rfl)

theorem Conversion.writtenSet_lt {c : Conversion} (h : c.checkRegions = none) :
    ∀ a ∈ c.writtenSet, a < Config.memBytes := by
  intro a ha
  obtain ⟨k, hk, rfl⟩ := c.mem_writtenSet.1 ha
  exact c.written_lt h hk

theorem Ending.inv {i : Instr} {s t : State} (h : Ending i s t) (hs : s.Inv) : t.Inv := by
  cases h with
  | nop => exact hs.of_regs_eq rfl rfl hs.mem_wf hs.status_legal.completed (State.latchMatches_of_idle rfl)
  | error code hc => exact hs.raiseError hc.1
  | converted c f _ hf hr =>
    exact hs.of_regs_eq rfl rfl (State.storeStream_wf hf hs.mem_wf hr) hs.status_legal.completed
      (State.latchMatches_of_idle rfl)
  | bus c _ hr =>
    exact hs.of_regs_eq rfl rfl (Memory.writeFree_wf hs.mem_wf (Conversion.writtenSet_lt hr))
      (Status.legal_failed _ (by simp)) (State.latchMatches_of_idle rfl)
  | found r _ hp hw hfound =>
    have hlegal : (s.writeResult r).complete.LegalResult := by
      obtain ⟨⟩ := writeResult_legal hw hfound
      constructor <;> assumption
    exact ⟨hs.mem_wf, hs.status_legal.completed, State.latchMatches_of_idle rfl, .inr hlegal,
      fun habs => by simp [hp] at habs, hw⟩

theorem engineStep_inv {s t : State} (h : s.engineStep = .next t) (hs : s.Inv) : t.Inv := by
  rcases engineStep_next h with rfl | ⟨i, -, hi⟩
  · exact hs.raiseError (by simp)
  · exact (exec_next hi).inv hs

theorem WriteEnding.inv {s t : State} {w : Word} {r : Reg} (h : WriteEnding s w r t) (hs : s.Inv) : t.Inv := by
  cases h with
  | issue =>
    exact hs.of_sameResult rfl (by simp [SameResult]) (fun _ => ⟨rfl, rfl⟩) hs.mem_wf (Status.legal_issued _)
      fun _ => rfl
  | overrun => exact hs.of_regs_eq rfl rfl hs.mem_wf hs.status_legal.overrun hs.latch_matches
  | clear => exact hs.of_regs_eq rfl rfl hs.mem_wf (hs.status_legal.clear w) hs.latch_matches
  | plain r p hcmd hres hpll =>
    exact hs.of_sameResult rfl hres hpll hs.mem_wf hs.status_legal fun hb => (hs.latch_matches hb).trans hcmd.symm

theorem HostEnding.inv {s t : State} {op : HostStep} (h : HostEnding s op t) (hs : s.Inv) : t.Inv := by
  cases h with
  | read r => exact hs.of_mem_wf rfl rfl rfl rfl hs.mem_wf
  | write r v => exact (writeReg_ending s r v).inv hs
  | wait =>
    obtain ⟨hregs, hstatus, hlatched, hmem, htie, -⟩ := hostWaits_keeps s
    exact hs.of_mem_wf htie hregs hstatus hlatched (hmem ▸ hs.mem_wf)
  | memRead a =>
    obtain ⟨hregs, hstatus, hlatched, hmem, htie, -⟩ := hostReads_keeps s a
    exact hs.of_mem_wf htie hregs hstatus hlatched (hmem ▸ hs.mem_wf)
  | memWrite a v ha => exact hs.of_mem_wf rfl rfl rfl rfl (Memory.write_wf hs.mem_wf ha v)
  | reset =>
    exact State.inv_of_zero rfl rfl (Memory.writeFree_wf hs.mem_wf fun _ => abortedBytes_lt) hs.params_wf

theorem Config.pllOfBuild_wf : Config.pllOfBuild.Wf := by
  unfold Config.pllOfBuild
  split
  · assumption
  · decide

end Sys2Proof.Machine

namespace Sys2Proof.Claims

open Sys2Proof.Machine

/-- Settles O59: each ending of an engine step and of a host step keeps the invariant. -/
theorem stepKeepsInvariant : Obligations.StepKeepsInvariant := by
  intro s t hs h
  rcases step_next h with ⟨-, rfl⟩ | ⟨q, -, hstep⟩ | ⟨op, rest, q, -, hend⟩
  · exact hs
  · exact engineStep_inv hstep (hs.with_agents s.host q)
  · exact hend.inv (hs.with_agents rest q)

/-- Settles O58: the registers of a reset state are zero, and the parameters of `State.reset` meet R10 by their choice. -/
theorem resetMeetsInvariant : Obligations.ResetMeetsInvariant := by
  have hreset : ∀ tie : TieOffs, tie.pll.Wf → (State.resetOf tie).Inv := fun tie htie =>
    State.inv_of_zero rfl rfl ⟨.nil, by simp [State.resetOf]⟩ htie
  exact ⟨hreset, hreset tieAtReset Config.pllOfBuild_wf⟩

/-- Settles O8: a host step changes BUSY by a CMD write or by reset only, and an engine step starts BUSY. -/
theorem busyChangesOnlyByIssueEngineOrReset : Obligations.BusyChangesOnlyByIssueEngineOrReset := by
  intro s t h
  rcases step_next h with ⟨-, rfl⟩ | ⟨q, hturn, -⟩ | ⟨op, rest, q, hturn, hend⟩
  · exact ⟨fun h0 h1 => absurd h1 (by simp [h0]), fun h1 h0 => absurd h1 (by simp [h0])⟩
  · exact ⟨fun h0 => absurd (turn_engine hturn) (by simp [h0]), fun _ _ => .inl ⟨q, hturn⟩⟩
  · have hhost : s.host = op :: rest := (turn_host hturn).1
    rcases hend.busy_cases with hsame | ⟨v, rfl, rfl⟩ | rfl
    · exact ⟨fun h0 h1 => absurd (hsame.symm.trans h1) (by simp [h0]),
        fun h1 h0 => absurd (hsame.symm.trans h0) (by simp [h1])⟩
    · exact ⟨fun _ _ => ⟨v, rest, hhost, rfl, rfl⟩, fun _ h0 => by simp at h0⟩
    · refine ⟨fun _ h1 => ?_, fun _ _ => .inr ⟨rest, hhost⟩⟩
      cases hend
      exact absurd h1 (by simp [Status.zero])

/-- Settles O50: of the endings of a step only a PLLSYN that found a configuration, and reset, touch a result register. -/
theorem resultRegistersOnlyByPllsyn : Obligations.ResultRegistersOnlyByPllsyn := by
  refine ⟨fun s r w hr => ?_, fun s t h hchanged => ?_⟩
  · simp only [readOnlyRegs, List.mem_cons, List.not_mem_nil, or_false] at hr
    rcases hr with rfl | rfl | rfl | rfl | rfl | rfl | rfl <;> rfl
  · rcases step_next h with ⟨-, rfl⟩ | ⟨q, hturn, hstep⟩ | ⟨op, rest, q, hturn, hend⟩
    · exact absurd (sameResult_of_regs_eq rfl) hchanged
    · rcases engineStep_next hstep with rfl | ⟨i, hi, hx⟩
      · exact absurd (sameResult_of_regs_eq rfl) hchanged
      · rcases (exec_next hx).sameResult_or_found with hsame | ⟨rfl, hp, hok⟩
        · exact absurd hsame hchanged
        · exact .inl ⟨⟨q, hturn⟩, eq_encode_of_decode hi, hp, hok⟩
    · by_cases hop : op = .reset
      · exact .inr ⟨rest, hop ▸ (turn_host hturn).1⟩
      · exact absurd (hend.sameResult hop) hchanged

end Sys2Proof.Claims
end

section
/-! PROOFS. What a register slot reads and takes (10_state.md R24 to R36), the accesses that reach it, and the issue of a
command, which the engine step then runs from `L` alone (R33). -/

namespace Sys2Proof.Machine

/-! ### The slots of an absent search (10_state.md R32) -/

theorem State.ifPll_of_present {s : State} (h : s.tie.pllPresent = true) (w : Word) : s.ifPll w = w := by
  rw [State.ifPll, if_pos h]

theorem State.ifPll_of_absent {s : State} (h : s.tie.pllPresent = false) (w : Word) : s.ifPll w = 0 := by
  rw [State.ifPll, if_neg (by simp [h])]

@[simp] theorem State.ifPll_zero (s : State) : s.ifPll 0 = 0 := ite_self 0

theorem writeReg_targetClk_of_present {s : State} (h : s.tie.pllPresent = true) (w : Word) :
    s.writeReg .targetClk w = { s with regs := { s.regs with targetClk := w } } := if_pos h

theorem writeReg_baseTotal_of_present {s : State} (h : s.tie.pllPresent = true) (w : Word) :
    s.writeReg .baseTotal w = { s with regs := { s.regs with baseTotal := w } } := if_pos h

theorem writeReg_targetClk_of_absent {s : State} (h : s.tie.pllPresent = false) (w : Word) :
    s.writeReg .targetClk w = s := if_neg (by simp [h])

theorem writeReg_baseTotal_of_absent {s : State} (h : s.tie.pllPresent = false) (w : Word) :
    s.writeReg .baseTotal w = s := if_neg (by simp [h])

theorem status_zero_word : Status.zero.word = 0 := by decide

/-! ### A placed command word (log entry 10) -/

theorem placeCommand_busy (s : State) (w : Word) : (s.placeCommand w).status.busy = true := by
  unfold State.placeCommand
  split
  · assumption
  · rfl

theorem placeCommand_latched_cmd (s : State) (w : Word) : (s.placeCommand w).latched.cmd = w := by
  unfold State.placeCommand
  split <;> rfl

theorem placeCommand_keeps (s : State) (w : Word) :
    (s.placeCommand w).mem = s.mem ∧ (s.placeCommand w).tie = s.tie := by
  unfold State.placeCommand
  split <;> exact ⟨rfl, rfl⟩

/-- Given the next turn, a BUSY engine takes it and uses up the entry that gave it. -/
theorem step_engineNext {s : State} (hb : s.status.busy = true) : step s.engineNext = s.engineStep := by
  unfold State.engineNext
  split
  next hh => exact step_of_turn_engine (turn_eq_engine_iff.2 ⟨hb, .inl ⟨hh, rfl⟩⟩)
  next op rest hh =>
    exact step_of_turn_engine (q := s.sched) (turn_eq_engine_iff.2 ⟨hb, .inr ⟨by simp [hh], .inr rfl⟩⟩)

end Sys2Proof.Machine

namespace Sys2Proof.Claims

open Sys2Proof.Machine

/-! ### The engine step reads only `L` (10_state.md R33) -/

/-- The answer of a step with the next state changed. -/
def mapNext (k : State → State) : Result → Result
  | .next s => .next (k s)
  | .fault r => .fault r
  | .refused r => .refused r

section
variable (a b c d e f g : Word) (s : State)

@[simp] theorem withParams_latched : (withParams a b c d e f g s).latched = s.latched := rfl
@[simp] theorem withParams_tie : (withParams a b c d e f g s).tie = s.tie := rfl

theorem convert_withParams (bytesOf : Word → List Byte) (check : Option ErrCode) (v : Conversion) :
    (withParams a b c d e f g s).convert bytesOf check v = withParams a b c d e f g (s.convert bytesOf check v) := by
  cases check with
  | some code => rfl
  | none =>
    simp only [State.convert, withParams_tie, apply_ite (withParams a b c d e f g)]
    rfl

theorem endSearch_withParams (found : Option Accepted) :
    (withParams a b c d e f g s).endSearch found = withParams a b c d e f g (s.endSearch found) := by
  cases found <;> rfl

theorem execPllsyn_withParams :
    execPllsyn (withParams a b c d e f g s) = mapNext (withParams a b c d e f g) (execPllsyn s) := by
  unfold execPllsyn
  simp only [withParams_latched, withParams_tie, endSearch_withParams, apply_ite (mapNext (withParams a b c d e f g))]
  rfl

theorem exec_withParams (i : Instr) :
    exec i (withParams a b c d e f g s) = mapNext (withParams a b c d e f g) (exec i s) := by
  cases hc : conversionOf i s.latched with
  | some v =>
    obtain ⟨bytesOf, check, hexec, -⟩ := exec_conversion hc
    rw [hexec (withParams a b c d e f g s) rfl, hexec s rfl, convert_withParams]
    rfl
  | none =>
    cases i with
    | nop => rfl
    | pllsyn => exact execPllsyn_withParams a b c d e f g s
    | line16 | line24 | frame16 | frame24 => simp [conversionOf] at hc

theorem engineStep_withParams :
    (withParams a b c d e f g s).engineStep = mapNext (withParams a b c d e f g) s.engineStep := by
  cases hd : decode s.tie.pllPresent s.latched.cmd with
  | ok i =>
    rw [engineStep_of_decode_ok hd, ← exec_withParams]
    exact engineStep_of_decode_ok hd
  | error err =>
    rw [engineStep_of_decode_error hd]
    exact engineStep_of_decode_error hd

end

/-- Settles O45: the issue is field by field R33's, and the engine step commutes with a change of the live parameter
registers. -/
theorem issueLatchesParameters : Obligations.IssueLatchesParameters := by
  refine ⟨fun s w hb => writeReg_cmd_of_idle hb w, fun s a b c d e f g => ⟨fun t h => ?_, fun r h => ?_⟩⟩
  · rw [engineStep_withParams, h, mapNext]
  · rw [engineStep_withParams, h, mapNext]

/-- Settles O6: the placed word is in `L`, BUSY is set and the engine has the turn. -/
theorem placedWordRunsNext : Obligations.PlacedWordRunsNext := by
  intro s w i hi hw
  have hcmd := placeCommand_latched_cmd s (BitVec.ofNat 32 w)
  have hbusy := placeCommand_busy s (BitVec.ofNat 32 w)
  obtain ⟨hmem, htie⟩ := placeCommand_keeps s (BitVec.ofNat 32 w)
  refine ⟨?_, hcmd, hbusy, hmem⟩
  rw [State.withFetchWord, Nat.mod_eq_of_lt hw, step_engineNext hbusy]
  exact engineStep_of_decode_ok (by rw [htie, hcmd, hi])

/-- Settles O44: the offset of a register is an allowed access to its slot. -/
theorem registerAccessesReachTheirSlot : Obligations.RegisterAccessesReachTheirSlot := by
  intro s r v
  constructor
  · rw [HostStep.rd, State.hostStep, regAccess_offset]
    rfl
  · rw [HostStep.wr, State.hostStep, regAccess_offset]

/-- Settles O46: clearing a field on a 1 bit is a conjunction with the bit's negation. -/
theorem statusWriteClearsFields : Obligations.StatusWriteClearsFields := by
  have clears : ∀ bit field : Bool, (if bit = true then false else field) = (field && !bit) := by decide
  intro s w
  simp only [State.writeReg, Status.clear, clears]

/-- Settles O47: STATUS has finitely many values, and each is checked. -/
theorem statusFieldPlaces : Obligations.StatusFieldPlaces := by
  rintro ⟨busy, done, err, ovr, code⟩
  cases code <;> decide +revert

/-- Settles O48: a parameter register's slot reads the register's own storage, which is what a write replaces. -/
theorem parameterRegistersReadBack : Obligations.ParameterRegistersReadBack := by
  intro s r w hr
  simp only [convRegs, List.mem_cons, List.not_mem_nil, or_false] at hr
  rcases hr with hr | ⟨hp, hr⟩
  · rcases hr with rfl | rfl | rfl | rfl | rfl <;> exact ⟨rfl, fun r' hne => by cases r' <;> trivial, rfl⟩
  · have hread : s.ifPll w = w := State.ifPll_of_present hp w
    rcases hr with rfl | rfl
    · rw [writeReg_targetClk_of_present hp]
      exact ⟨hread, fun r' hne => by cases r' <;> trivial, rfl⟩
    · rw [writeReg_baseTotal_of_present hp]
      exact ⟨hread, fun r' hne => by cases r' <;> trivial, rfl⟩

/-- Settles O49: the reserved slot has no storage, and the slots of an absent search read through `State.ifPll`. -/
theorem reservedSlotsReadZero : Obligations.ReservedSlotsReadZero := by
  intro s r w hr
  rcases hr with rfl | ⟨hp, hr⟩
  · exact ⟨rfl, rfl⟩
  · simp only [pllRegs, List.mem_cons, List.not_mem_nil, or_false] at hr
    have hread : ∀ v, s.ifPll v = 0 := State.ifPll_of_absent hp
    rcases hr with rfl | rfl | rfl | rfl | rfl | rfl | rfl | rfl
    · exact ⟨hread _, writeReg_targetClk_of_absent hp w⟩
    · exact ⟨hread _, writeReg_baseTotal_of_absent hp w⟩
    all_goals exact ⟨hread _, rfl⟩

/-- Settles O51: every slot reads a zero register, a search register through `State.ifPll`. -/
theorem resetZeroesRegisters : Obligations.ResetZeroesRegisters := by
  intro tie
  refine ⟨fun r => ?_, rfl, rfl, rfl⟩
  have hpll : (State.resetOf tie).ifPll 0 = 0 := State.ifPll_zero _
  cases r with
  | targetClk | baseTotal | pllCfg | pllDiv | pllClk | pllAdj | pllTotal | pllPpm => exact hpll
  | status => exact status_zero_word
  | cmd | srcAddr | dstAddr | width | height | srcPitch | reserved => rfl

end Sys2Proof.Claims
end

section
/-! PROOFS. Memory as the engine and the host see it (20_memory.md R50 to R58): byte order, what a write changes, and
which host accesses have an effect. -/

namespace Sys2Proof.Machine

/-! ### Byte order (20_memory.md R52) -/

/-- Byte `j + 1` of a value with one more byte below it is byte `j` of the value. -/
theorem extractLsb'_byte_succ_append {n : Nat} (hi : BitVec n) (lo : Byte) (j : Nat) :
    (hi ++ lo).extractLsb' (8 * (j + 1)) 8 = hi.extractLsb' (8 * j) 8 := by
  rw [BitVec.extractLsb'_append_eq_of_le (by omega), Nat.mul_succ, Nat.add_sub_cancel]

theorem extractLsb'_readWord_le (m : Memory) (a : Nat) {j : Nat} (hj : j < 4) :
    (m.readWord .le a).extractLsb' (8 * j) 8 = m.read (a + j) := by
  unfold Memory.readWord
  match j, hj with
  | 0, _ => exact BitVec.extractLsb'_append_eq_right
  | 1, _ =>
    rw [extractLsb'_byte_succ_append]
    exact BitVec.extractLsb'_append_eq_right
  | 2, _ =>
    rw [extractLsb'_byte_succ_append, extractLsb'_byte_succ_append]
    exact BitVec.extractLsb'_append_eq_right
  | 3, _ =>
    rw [extractLsb'_byte_succ_append, extractLsb'_byte_succ_append, extractLsb'_byte_succ_append]
    exact BitVec.extractLsb'_eq_self

/-! ### Register accesses that are refused (20_memory.md R58, 93_implementation_defined.md U12) -/

theorem windowBase_mod_four (tie : TieOffs) : windowBase tie % 4 = 0 := by
  unfold windowBase
  omega

theorem regAccess_outside {tie : TieOffs} {addr : Nat} (h : addr < windowBase tie ∨ windowBase tie + 64 ≤ addr)
    (bits : Nat) : regAccess tie addr bits = .error .outsideWindow := if_pos h

/-- The window stands at a multiple of 4, so an access in it is aligned exactly when its offset is. -/
theorem regAccess_bad {tie : TieOffs} {addr bits : Nat} (hlo : windowBase tie ≤ addr)
    (hhi : addr < windowBase tie + 64) (h : bits ≠ 32 ∨ addr % 4 ≠ 0) :
    regAccess tie addr bits = .error .badRegisterAccess := by
  have hbase := windowBase_mod_four tie
  unfold regAccess Config.windowBytes
  rw [if_neg (by omega), if_pos (by omega)]

/-- A refused access is refused as a read and as a write. -/
theorem hostStep_of_regAccess_error {s : State} {addr bits : Nat} {r : Refusal}
    (h : regAccess s.tie addr bits = .error r) (v : Word) :
    State.hostStep (.regRead addr bits) s = .refused r ∧ State.hostStep (.regWrite addr bits v) s = .refused r := by
  simp [State.hostStep, h]

/-! ### Host memory accesses (20_memory.md R50, 70_reset_and_hazards.md R205) -/

theorem hostStep_mem_of_le {s : State} {a : Nat} (h : 2 ^ 32 ≤ a) (v : Byte) :
    State.hostStep (.memWrite a v) s = .fault .noSuchAddress ∧
      State.hostStep (.memRead a) s = .fault .noSuchAddress := ⟨if_pos h, if_pos h⟩

theorem hostStep_memWrite_of_free {s : State} {a : Nat} (h : a < 2 ^ 32) (ho : s.owned a = false) (v : Byte) :
    State.hostStep (.memWrite a v) s = .next { s with mem := s.mem.write a v } := by
  have hlt : ¬ Config.memBytes ≤ a := Nat.not_le.2 h
  simp [State.hostStep, hlt, ho]

theorem hostStep_memRead_of_not_inBusyWindow {s : State} {a : Nat} (h : a < 2 ^ 32) (hw : s.inBusyWindow a = false) :
    State.hostStep (.memRead a) s = .next (s.observe (.byte a (s.mem.read a))) := by
  have hlt : ¬ Config.memBytes ≤ a := Nat.not_le.2 h
  simp [State.hostStep, State.hostReads, hlt, hw]

theorem State.owned_of_no_conversion {s : State} (h : s.inFlight = none) (a : Nat) : s.owned a = false := by
  rw [State.owned, h]

theorem State.inBusyWindow_of_no_conversion {s : State} (h : s.inFlight = none) (a : Nat) :
    s.inBusyWindow a = false := by
  rw [State.inBusyWindow, h]

end Sys2Proof.Machine

namespace Sys2Proof.Claims

open Sys2Proof.Machine

/-- Settles O42: in canonical form each address is listed at most once, so a write has one cell to replace, and the cells
are what the memory reads as. -/
theorem memoryReadsWhatWasWritten : Obligations.MemoryReadsWhatWasWritten := by
  refine ⟨fun m a b v hm => ?_, fun m a v hm ha => Memory.write_wf hm ha v, fun m n hm hn => Memory.ext_of_wf hm hn⟩
  split_ifs with hb
  · rw [hb, Memory.read_write_same hm]
  · exact Memory.read_write_other m v hb

/-- Settles O41: the word is the four bytes put together, the lowest address last. -/
theorem sourceWordIsLittleEndian : Obligations.SourceWordIsLittleEndian :=
  fun m a => ⟨readWord_le m a, fun _ hj => extractLsb'_readWord_le m a hj⟩

/-- Settles O43: what `regAccess` refuses is refused as a read and as a write. -/
theorem onlyAlignedWordAccesses : Obligations.OnlyAlignedWordAccesses := by
  intro s addr bits v
  exact ⟨fun hlo hhi hbad => hostStep_of_regAccess_error (regAccess_bad hlo hhi hbad) v,
    fun hout => hostStep_of_regAccess_error (regAccess_outside hout bits) v⟩

/-- Settles O55: with no conversion in flight no byte is owned and none is in a window. -/
theorem hostMemoryWhenIdle : Obligations.HostMemoryWhenIdle := by
  intro s a v hnone
  refine ⟨fun ha => ⟨?_, ?_⟩, fun ha => hostStep_mem_of_le ha v⟩
  · exact hostStep_memWrite_of_free ha (State.owned_of_no_conversion hnone a) v
  · exact hostStep_memRead_of_not_inBusyWindow ha (State.inBusyWindow_of_no_conversion hnone a)

end Sys2Proof.Claims
end

section
/-! PROOFS. Encoding (30_encoding.md R70 to R78): a word decodes exactly when it is the word of a command the build has, an
illegal word fails with ILLEGAL_CMD alone, and `wait` is decided by bit 0 of STATUS. -/

namespace Sys2Proof

/-! ### The command words (30_encoding.md R73) -/

@[simp] theorem encode_nop : encode .nop = 0x00000000 := rfl
@[simp] theorem encode_line16 : encode .line16 = 0x00000012 := rfl
@[simp] theorem encode_line24 : encode .line24 = 0x00000013 := rfl
@[simp] theorem encode_frame16 : encode .frame16 = 0x00000022 := rfl
@[simp] theorem encode_frame24 : encode .frame24 = 0x00000023 := rfl
@[simp] theorem encode_pllsyn : encode .pllsyn = 0x00000030 := rfl

/-! ### The decoder against the encoder (30_encoding.md R76) -/

theorem decode_encode {pllPresent : Bool} {i : Instr} (h : i.wellFormed pllPresent = true) :
    decode pllPresent (encode i) = .ok i := by
  cases i with
  | nop | line16 | line24 | frame16 | frame24 => rfl
  | pllsyn =>
    obtain rfl : pllPresent = true := h
    rfl

/-- The decoder gives a command only to a build that has it. -/
theorem wellFormed_of_decode {pllPresent : Bool} {w : Word} {i : Instr} (h : decode pllPresent w = .ok i) :
    i.wellFormed pllPresent = true := by
  obtain rfl := eq_encode_of_decode h
  cases i with
  | nop | line16 | line24 | frame16 | frame24 => rfl
  | pllsyn =>
    cases pllPresent with
    | true => rfl
    | false => cases h

theorem decode_eq_ok_iff {pllPresent : Bool} {w : Word} {i : Instr} :
    decode pllPresent w = .ok i ↔ w = encode i ∧ i.wellFormed pllPresent = true := by
  constructor
  · exact fun h => ⟨eq_encode_of_decode h, wellFormed_of_decode h⟩
  · rintro ⟨rfl, hwf⟩
    exact decode_encode hwf

/-- A word that is the word of no command the build has is illegal. -/
theorem exists_decode_eq_error {pllPresent : Bool} {w : Word}
    (h : ∀ i : Instr, i.wellFormed pllPresent = true → w ≠ encode i) : ∃ e, decode pllPresent w = .error e := by
  cases hd : decode pllPresent w with
  | error e => exact ⟨e, rfl⟩
  | ok i => exact absurd (eq_encode_of_decode hd) (h i (wellFormed_of_decode hd))

end Sys2Proof

namespace Sys2Proof.Machine

/-! ### An issued illegal word (30_encoding.md R74) -/

/-- The engine step of a word just issued depends on what the word decodes to, on the same build. -/
theorem engineStep_issue_of_decode_error {s : State} {w : Word} {e : DecodeError}
    (h : decode s.tie.pllPresent w = .error e) :
    (s.issue w).engineStep = .next ((s.issue w).raiseError .illegalCmd) :=
  engineStep_of_decode_error (s := s.issue w) h

/-! ### `wait` (30_encoding.md R78) -/

theorem hostWaits_of_busy {s : State} (hb : s.status.busy = true) :
    s.hostWaits = { s.observe (.reg 4 s.status.word) with host := .wait :: s.host } := if_pos hb

theorem hostWaits_of_idle {s : State} (hb : s.status.busy = false) :
    s.hostWaits = s.observe (.reg 4 s.status.word) := if_neg (by simp [hb])

end Sys2Proof.Machine

namespace Sys2Proof.Claims

open Sys2Proof.Machine

/-- Settles O2: by the row of each command, PLLSYN's on a build that has the search. -/
theorem encodedCommandsDecodeBack : Obligations.EncodedCommandsDecodeBack := fun _ _ h => decode_encode h

/-- Settles O1: a word decodes exactly when it is the word of a command the build has, and the six words are R73's. -/
theorem opcodeMapIsComplete : Obligations.OpcodeMapIsComplete := by
  intro pll w i
  rw [decode_eq_ok_iff]
  cases i <;> simp [Instr.wellFormed]

/-- Settles O3: the six legal words are the encoder's, and each illegal word fails the test of R76 that its error names. -/
theorem writtenOutWordsDecode : Obligations.WrittenOutWordsDecode :=
  ⟨decode_encode (i := .nop) rfl, decode_encode (i := .line16) rfl, decode_encode (i := .line24) rfl,
    decode_encode (i := .frame16) rfl, decode_encode (i := .frame24) rfl, decode_encode (i := .pllsyn) rfl,
    rfl, rfl, rfl⟩

/-- Settles O7: the word is the word of no command the build has, so it is issued and fails. -/
theorem illegalWordIsIssuedAndFails : Obligations.IllegalWordIsIssuedAndFails := by
  intro s w hw hpll hb
  obtain ⟨e, he⟩ : ∃ e, decode s.tie.pllPresent w = .error e := by
    refine exists_decode_eq_error fun i hwf => ?_
    rintro rfl
    cases i with
    | nop | line16 | line24 | frame16 | frame24 => simp at hw
    | pllsyn =>
      have hpresent : s.tie.pllPresent = true := hwf
      simp [hpresent] at hpll
  rw [writeReg_cmd_of_idle hb, engineStep_issue_of_decode_error he]
  exact ⟨rfl, rfl, rfl⟩

/-- Settles O56: bit 0 of the value read is BUSY, which decides whether `wait` stays. -/
theorem waitPollsStatus : Obligations.WaitPollsStatus := by
  intro s
  obtain ⟨hbit, -⟩ := statusFieldPlaces s.status
  refine ⟨s.hostWaits, rfl, ?_⟩
  rw [hbit]
  cases hb : s.status.busy with
  | true =>
    rw [hostWaits_of_busy hb]
    exact ⟨rfl, fun _ => rfl, by simp⟩
  | false =>
    rw [hostWaits_of_idle hb]
    exact ⟨rfl, by simp, fun _ => rfl⟩

end Sys2Proof.Claims
end

section
/-! PROOFS. The swizzle, the window and the written set of a conversion (40_convert.md R105 to R107). -/

namespace Sys2Proof.Machine

/-- The swizzle exchanges the two halves of each group of eight bytes (40_convert.md R105). -/
theorem swizzle_eq_ite (k : Nat) : swizzle k = if k % 8 < 4 then k + 4 else k - 4 := by
  have hgroup : ∀ r < 8, swizzle r = if r < 4 then r + 4 else r - 4 := by decide
  have hk : swizzle k = 8 * (k / 8) + swizzle (k % 8) := by
    rw [← swizzle_add_of_dvd, Nat.div_add_mod]
  rw [hk, hgroup _ (Nat.mod_lt k (by omega))]
  split <;> omega

/-- The halfword that holds a swizzled byte, and its place in it (40_convert.md R107). -/
theorem swizzle_halfword (k : Nat) : swizzle k / 2 = k / 2 ^^^ 2 ∧ swizzle k % 2 = k % 2 :=
  ⟨Nat.xor_div_two_pow (a := k) (b := 4) (n := 1), by
    rw [swizzle_eq_ite]
    split <;> omega⟩

end Sys2Proof.Machine

namespace Sys2Proof.Claims

open Sys2Proof.Machine

/-- The swizzle is its own inverse, so an address is written when its own swizzled offset is a stream byte. -/
theorem written_iff_swizzle_lt {d n a : Nat} : Written d n a ↔ d ≤ a ∧ swizzle (a - d) < n := by
  constructor
  · rintro ⟨k, hk, rfl⟩
    have hback : swizzle (d + swizzle k - d) = k := by rw [Nat.add_sub_cancel_left, swizzle_swizzle]
    exact ⟨Nat.le_add_right d _, hback.symm ▸ hk⟩
  · rintro ⟨hle, hlt⟩
    refine ⟨swizzle (a - d), hlt, ?_⟩
    have hback : (swizzle (a - d)) ^^^ 4 = a - d := swizzle_swizzle _
    omega

theorem written_in_window {d n a : Nat} (h : Written d n a) : d ≤ a ∧ a < d + up8 n := by
  obtain ⟨k, hk, rfl⟩ := h
  exact ⟨Nat.le_add_right d _, Nat.add_lt_add_left (swizzle_lt_ceil8 hk) d⟩

/-- The full groups of a stream are written whole; the last group is a stream of its own (40_convert.md R106). -/
theorem written_iff_groups {d n a : Nat} :
    Written d n a ↔ (d ≤ a ∧ a < d + 8 * (n / 8)) ∨ Written (d + 8 * (n / 8)) (n - 8 * (n / 8)) a := by
  rw [written_iff_swizzle_lt, written_iff_swizzle_lt, swizzle_eq_ite, swizzle_eq_ite]
  split <;> split <;> omega

/-- However a conversion command ends, it writes memory only in its written set (40_convert.md R115). -/
theorem exec_mem_read_other {i : Instr} {s t : State} {c : Conversion} {a : Nat} (hc : conversionOf i s.latched = some c)
    (ht : exec i s = .next t) (ha : ¬ Written c.dst (c.bpp * c.width * c.height) a) : t.mem.read a = s.mem.read a := by
  refine (exec_next ht).mem_read_other fun c' hc' hmem => ha ?_
  obtain rfl : c = c' := Option.some.inj (hc.symm.trans hc')
  exact mem_writtenSet_iff.1 hmem

/-- Settles O21: the swizzle leaves the parity of a byte index alone and moves its halfword by XOR 2. -/
theorem halfwordIndexXor2 : Obligations.HalfwordIndexXor2 := by
  intro i
  obtain ⟨hdiv, hmod⟩ := swizzle_halfword (2 * i)
  obtain ⟨hdiv', hmod'⟩ := swizzle_halfword (2 * i + 1)
  rw [show 2 * i / 2 = i by omega] at hdiv
  rw [show (2 * i + 1) / 2 = i by omega] at hdiv'
  omega

/-- Settles O20: the window facts are arithmetic on the written set; a command that ends leaves every byte outside it. -/
theorem writtenSetInItsWindow : Obligations.WrittenSetInItsWindow := by
  refine ⟨fun c a => ⟨mem_writtenSet_iff, c.inWindow_iff, fun h => ?_⟩, fun d n a => written_in_window,
    fun d n a hn hlo hhi => ?_, fun d n a => written_iff_groups, fun d n j hr hj => ?_,
    fun i s t c hc ht a _ _ ha => ?_⟩
  · exact c.inWindow_iff.2 (c.mem_window_of_mem_writtenSet h)
  · refine written_iff_groups.2 (.inl ⟨hlo, ?_⟩)
    unfold up8 at hhi
    omega
  · rw [written_iff_swizzle_lt, swizzle_eq_ite]
    split <;> omega
  · exact exec_mem_read_other hc ht ha

end Sys2Proof.Claims
end

section
/-! PROOFS. How each conversion command ends: in the error its checks find, in BUS, or completed (40_convert.md R108, R109,
R115, R116), and NOP (R110). -/

namespace Sys2Proof.Claims

open Sys2Proof.Machine

/-! ### The commands as `State.convert` -/

theorem exec_nop (s : State) : exec .nop s = .next { s with status := endedOk s } := rfl

theorem exec_line16 (s : State) :
    exec .line16 s =
      .next (s.convert (stream16 s.tie.conv) (lineOperands 2 s.latched).checkLine (lineOperands 2 s.latched)) := rfl

theorem exec_line24 (s : State) :
    exec .line24 s =
      .next (s.convert (stream24 s.tie.conv) (lineOperands 3 s.latched).checkLine (lineOperands 3 s.latched)) := rfl

theorem exec_frame16 (s : State) :
    exec .frame16 s =
      .next (s.convert (stream16 s.tie.conv) (frameOperands 2 s.latched).checkFrame (frameOperands 2 s.latched)) := rfl

theorem exec_frame24 (s : State) :
    exec .frame24 s =
      .next (s.convert (stream24 s.tie.conv) (frameOperands 3 s.latched).checkFrame (frameOperands 3 s.latched)) := rfl

/-! ### The endings of `State.convert` -/

section
variable {f : Word → List Byte} {check : Option ErrCode} {c : Conversion} {s : State}

theorem convert_of_error {code : ErrCode} (h : check = some code) :
    s.convert f check c = { s with status := endedWith code s } := by
  rw [h]
  exact raiseError_eq s code

theorem convert_of_admitted (h : check = none) (ha : c.admitted s.tie = true) :
    s.convert f check c = { s with mem := (s.storeStream f c).mem, status := endedOk s } := by
  rw [h]
  exact if_pos ha

theorem convert_of_not_admitted (h : check = none) (ha : ¬ c.admitted s.tie = true) :
    s.convert f check c =
      { s with
        mem := Memory.writeFree c.writtenSet s.draws s.mem
        draws := s.draws + c.streamLen
        status := endedWith .bus s } := by
  rw [h, ← c.length_writtenSet]
  exact if_neg ha

/-- BUS leaves a free value of its own in the place of each stream byte (40_convert.md R116). -/
theorem endsInBus {i : Instr} (hexec : exec i s = .next (s.convert f check c)) (hm : s.mem.Wf) (hcheck : check = none)
    (hr : c.checkRegions = none) (ha : ¬ c.admitted s.tie = true) : EndsInBus i s c.dst c.streamLen := by
  refine ⟨_, hexec.trans (congrArg _ (convert_of_not_admitted hcheck ha)), fun k hk => ?_, fun a hnot => ?_⟩
  · have hlen : k < c.writtenSet.length := c.length_writtenSet.symm ▸ hk
    have hread := Memory.read_writeFree hm (Conversion.writtenSet_lt hr) c.nodup_writtenSet hlen (n := s.draws)
    rw [c.getElem_writtenSet] at hread
    exact hread
  · exact Memory.read_writeFree_other fun hmem => hnot (c.mem_writtenSet.1 hmem)

/-! ### What the checks find (60_exceptions.md R181) -/

theorem checkLine_align (h : ¬ (c.src % 4 = 0 ∧ c.dst % 8 = 0)) : c.checkLine = some .align := by
  unfold Conversion.checkLine
  rw [if_pos (by omega)]

theorem checkLine_aligned (h : c.src % 4 = 0 ∧ c.dst % 8 = 0) : c.checkLine = c.checkRegions := by
  unfold Conversion.checkLine
  rw [if_neg (by omega)]

theorem checkFrame_badDim (h : ¬ (c.width ≠ 0 ∧ c.height ≠ 0 ∧ 4 * c.width ≤ c.pitch)) : c.checkFrame = some .badDim := by
  unfold Conversion.checkFrame
  rw [if_pos (by omega)]

theorem checkFrame_align (hdim : c.width ≠ 0 ∧ c.height ≠ 0 ∧ 4 * c.width ≤ c.pitch)
    (h : ¬ (c.src % 4 = 0 ∧ c.pitch % 4 = 0 ∧ c.dst % 8 = 0)) : c.checkFrame = some .align := by
  unfold Conversion.checkFrame
  rw [if_neg (by omega), if_pos (by omega)]

theorem checkFrame_aligned (hdim : c.width ≠ 0 ∧ c.height ≠ 0 ∧ 4 * c.width ≤ c.pitch)
    (h : c.src % 4 = 0 ∧ c.pitch % 4 = 0 ∧ c.dst % 8 = 0) : c.checkFrame = c.checkRegions := by
  unfold Conversion.checkFrame
  rw [if_neg (by omega), if_neg (by omega)]

theorem line_regions {bpp : Nat} (h : LineFits bpp s) : (lineOperands bpp s.latched).checkRegions = none := by
  rw [← checkLine_aligned h.1]
  exact lineFits_iff.2 h

theorem frame_regions {bpp : Nat} (h : FrameFits bpp s) : (frameOperands bpp s.latched).checkRegions = none := by
  rw [← checkFrame_aligned h.1 h.2.1]
  exact frameFits_iff.2 h

/-- The error the checks of a line find is the one it ends in. -/
theorem exec_line_error {i : Instr} {bpp : Nat} (hi : (i, bpp) ∈ [(Instr.line16, 2), (Instr.line24, 3)]) {code : ErrCode}
    (h : (lineOperands bpp s.latched).checkLine = some code) : exec i s = .next { s with status := endedWith code s } := by
  simp only [List.mem_cons, List.not_mem_nil, or_false, Prod.mk.injEq] at hi
  rcases hi with ⟨rfl, rfl⟩ | ⟨rfl, rfl⟩
  · rw [exec_line16, convert_of_error h]
  · rw [exec_line24, convert_of_error h]

/-- The error the checks of a frame find is the one it ends in. -/
theorem exec_frame_error {i : Instr} {bpp : Nat} (hi : (i, bpp) ∈ [(Instr.frame16, 2), (Instr.frame24, 3)])
    {code : ErrCode} (h : (frameOperands bpp s.latched).checkFrame = some code) :
    exec i s = .next { s with status := endedWith code s } := by
  simp only [List.mem_cons, List.not_mem_nil, or_false, Prod.mk.injEq] at hi
  rcases hi with ⟨rfl, rfl⟩ | ⟨rfl, rfl⟩
  · rw [exec_frame16, convert_of_error h]
  · rw [exec_frame24, convert_of_error h]

/-- Of a line that fits, BUS frees the written set if a byte is not admitted. -/
theorem line_endsInBus {i : Instr} {bpp : Nat}
    (hexec : exec i s = .next (s.convert f (lineOperands bpp s.latched).checkLine (lineOperands bpp s.latched)))
    (hm : s.mem.Wf) (hfits : LineFits bpp s) (hadm : ¬ LineAdmitted bpp s) : EndsInBus i s (D s) (bpp * W s) := by
  rw [← line_streamLen]
  exact endsInBus hexec hm (lineFits_iff.2 hfits) (line_regions hfits) (mt lineAdmitted_iff.1 hadm)

/-- Of a frame that fits, BUS frees the written set if a byte is not admitted. -/
theorem frame_endsInBus {i : Instr} {bpp : Nat}
    (hexec : exec i s = .next (s.convert f (frameOperands bpp s.latched).checkFrame (frameOperands bpp s.latched)))
    (hm : s.mem.Wf) (hfits : FrameFits bpp s) (hadm : ¬ FrameAdmitted bpp s) :
    EndsInBus i s (D s) (bpp * W s * H s) :=
  endsInBus hexec hm (frameFits_iff.2 hfits) (frame_regions hfits) (mt frameAdmitted_iff.1 hadm)

end

/-- A line command and the frame command of its bytes per pixel convert with one stream function. -/
theorem exec_line_frame {li fi : Instr} {bpp : Nat}
    (h : (fi, li, bpp) ∈ [(Instr.frame16, Instr.line16, 2), (Instr.frame24, Instr.line24, 3)]) :
    ∃ bytesOf : ConvParams → Word → List Byte, (∀ q p, (bytesOf q p).length = bpp) ∧
      (∀ s : State, exec li s =
        .next (s.convert (bytesOf s.tie.conv) (lineOperands bpp s.latched).checkLine (lineOperands bpp s.latched))) ∧
      ∀ s : State, exec fi s =
        .next (s.convert (bytesOf s.tie.conv) (frameOperands bpp s.latched).checkFrame (frameOperands bpp s.latched)) := by
  simp only [List.mem_cons, List.not_mem_nil, or_false, Prod.mk.injEq] at h
  rcases h with ⟨rfl, rfl, rfl⟩ | ⟨rfl, rfl, rfl⟩
  · exact ⟨stream16, length_stream16, exec_line16, exec_frame16⟩
  · exact ⟨stream24, length_stream24, exec_line24, exec_frame24⟩

/-- Settles O10: NOP is `complete()`; issued on an idle machine it finds ERR, ERRCODE and DONE cleared. -/
theorem nopCompletes : Obligations.NopCompletes := by
  refine ⟨exec_nop, fun s hb hovr => ?_⟩
  have hdecode : decode s.tie.pllPresent 0x00000000 = .ok .nop := decode_encode (i := .nop) rfl
  refine ⟨(s.issue 0x00000000).complete, ?_, ?_⟩
  · rw [writeReg_cmd_of_idle hb]
    exact (engineStep_of_decode_ok (s := s.issue 0x00000000) hdecode).trans (exec_nop _)
  · have hstatus : s.status.issued.completed = { Status.zero with done := true } := by
      simp [Status.issued, Status.completed, Status.zero, hovr]
    rw [State.complete_status, State.issue_status, hstatus]
    decide

/-- Settles O16: the checks of a line one after the other. -/
theorem lineErrorsInOrder : Obligations.LineErrorsInOrder := by
  intro i bpp hi s
  refine ⟨fun hal => exec_line_error hi (checkLine_align hal), fun hal hrange => exec_line_error hi ?_,
    fun hal hrange hmeets => exec_line_error hi ?_⟩
  · rw [checkLine_aligned hal]
    refine checkRegions_range ?_
    rwa [line_srcSpan, line_streamLen]
  · rw [checkLine_aligned hal]
    refine checkRegions_overlap ?_ ?_ <;> rwa [line_srcSpan, line_streamLen]

/-- Settles O17: the checks of a frame one after the other. -/
theorem frameErrorsInOrder : Obligations.FrameErrorsInOrder := by
  intro i bpp hi s
  refine ⟨fun hdim => exec_frame_error hi (checkFrame_badDim hdim),
    fun hdim hal => exec_frame_error hi (checkFrame_align hdim hal),
    fun hdim hal hrange => exec_frame_error hi ?_, fun hdim hal hrange hmeets => exec_frame_error hi ?_⟩
  · exact (checkFrame_aligned hdim hal).trans (checkRegions_range hrange)
  · exact (checkFrame_aligned hdim hal).trans (checkRegions_overlap hrange hmeets)

/-- Settles O18: each conversion whose checks pass and whose bytes are not all admitted ends in BUS. -/
theorem busErrorFreesTheWrittenSet : Obligations.BusErrorFreesTheWrittenSet := fun s hm =>
  ⟨line_endsInBus (exec_line16 s) hm, line_endsInBus (exec_line24 s) hm, frame_endsInBus (exec_frame16 s) hm,
    frame_endsInBus (exec_frame24 s) hm⟩

/-- Settles O19: no ending of a conversion touches a register or a latched field, and each keeps to the written set. -/
theorem conversionsWriteOnlyTheWrittenSet : Obligations.ConversionsWriteOnlyTheWrittenSet := by
  intro i hi s t ht
  have hend := exec_next ht
  refine ⟨?_, ?_, fun c hc a ha => exec_mem_read_other hc ht ha⟩
  · cases hend with
    | error | converted | bus => rfl
    | nop h | found _ h => subst h; simp [conversions] at hi
  · cases hend <;> rfl

end Sys2Proof.Claims
end

section
/-! PROOFS. What a completed conversion leaves in its destination (40_convert.md R111 to R114), and that a conversion run
again, or from another memory with the same source, leaves the same bytes (R119). -/

namespace Sys2Proof.Machine

variable {f : Word → List Byte} {c : Conversion} {s : State}

/-- Stream byte `k` is read back at its swizzled place (40_convert.md R105). -/
theorem State.storeStream_read_stream (hf : ∀ p, (f p).length = c.bpp) (hm : s.mem.Wf) (hr : c.checkRegions = none)
    {k : Nat} (hk : k < c.streamLen) :
    some ((s.storeStream f c).mem.read (c.dst + swizzle k)) = (c.stream s.tie.conv.srcOrder f s.mem)[k]? := by
  have hlen := Conversion.length_stream hf s.tie.conv.srcOrder s.mem
  have hin : ∀ j, j < (c.stream s.tie.conv.srcOrder f s.mem).length → c.dst + swizzle (0 + j) < Config.memBytes := by
    intro j hj
    rw [Nat.zero_add]
    exact c.written_lt hr (hlen ▸ hj)
  have hread := Memory.read_place hm hin (hlen.symm ▸ hk)
  rw [Nat.zero_add] at hread
  rw [State.storeStream_mem, hread, List.getElem?_eq_getElem]

/-- Conversions of one build that read the same source bytes write the same destination bytes (40_convert.md R119). -/
theorem State.storeStream_read_congr {t : State} (hf : ∀ p, (f p).length = c.bpp) (hms : s.mem.Wf) (hmt : t.mem.Wf)
    (hr : c.checkRegions = none) (htie : s.tie = t.tie) (hsrc : ∀ a ∈ c.srcBytes, s.mem.read a = t.mem.read a)
    {a : Nat} (ha : a ∈ c.writtenSet) : (s.storeStream f c).mem.read a = (t.storeStream f c).mem.read a := by
  obtain ⟨k, hk, rfl⟩ := c.mem_writtenSet.1 ha
  have hs := State.storeStream_read_stream hf hms hr hk
  have ht := State.storeStream_read_stream hf hmt hr hk
  rw [Conversion.stream_congr _ f hsrc, htie] at hs
  exact Option.some.inj (hs.trans ht.symm)

/-- A conversion does not write its own source (40_convert.md R108, R209). -/
theorem State.storeStream_read_src (hf : ∀ p, (f p).length = c.bpp) (hr : c.checkRegions = none) {a : Nat}
    (ha : a ∈ c.srcBytes) : (s.storeStream f c).mem.read a = s.mem.read a := by
  refine State.storeStream_read_other hf fun hmem => ?_
  obtain ⟨k, hk, he⟩ := c.mem_writtenSet.1 hmem
  exact c.src_not_written hr ha hk he

theorem State.storeStream_eq_self (h : (s.storeStream f c).mem = s.mem) : s.storeStream f c = s := by
  show { s with mem := (s.storeStream f c).mem } = s
  rw [h]

/-- A stream placed again over its own conversion changes no byte, so in canonical form nothing (40_convert.md R119). -/
theorem State.storeStream_storeStream (hf : ∀ p, (f p).length = c.bpp) (hm : s.mem.Wf) (hr : c.checkRegions = none) :
    (s.storeStream f c).storeStream f c = s.storeStream f c := by
  have hwf := State.storeStream_wf hf hm hr
  refine State.storeStream_eq_self (Memory.ext_of_wf (State.storeStream_wf hf hwf hr) hwf fun a => ?_)
  by_cases ha : a ∈ c.writtenSet
  · exact State.storeStream_read_congr hf hwf hm hr rfl (fun b => State.storeStream_read_src hf hr) ha
  · exact State.storeStream_read_other hf ha

/-- A completed conversion, run again, leaves the state it has left. -/
theorem State.convert_completed (hf : ∀ p, (f p).length = c.bpp) (hm : s.mem.Wf) (hr : c.checkRegions = none)
    (ha : c.admitted s.tie = true) :
    (s.storeStream f c).complete.convert f none c = (s.storeStream f c).complete := by
  have hagain : (s.storeStream f c).complete.convert f none c = ((s.storeStream f c).storeStream f c).complete.complete :=
    if_pos ha
  rw [hagain, State.storeStream_storeStream hf hm hr]
  rfl

/-- A conversion without an error was admitted, and its checks found nothing. -/
theorem State.convert_of_no_error {check : Option ErrCode} (h : (s.convert f check c).status.err = false) :
    check = none ∧ c.admitted s.tie = true := by
  rcases s.convert_cases f check c with ⟨code, -, he⟩ | ⟨hcheck, ha, -⟩ | ⟨-, -, he⟩
  · rw [he] at h
    cases h
  · exact ⟨hcheck, ha⟩
  · rw [he] at h
    cases h

end Sys2Proof.Machine

namespace Sys2Proof.Claims

open Sys2Proof.Machine

/-! ### Pixels under the parameters of R8 -/

theorem stream16_spec (p : Word) : stream16 .spec p = [(rgb16 p).extractLsb' 0 8, (rgb16 p).extractLsb' 8 8] := by
  rw [← rgb565_truncate]
  rfl

theorem stream24_spec (p : Word) :
    stream24 .spec p = [p.extractLsb' 16 8, p.extractLsb' 8 8, p.extractLsb' 0 8] := rfl

section
variable {c : Conversion} {s : State}

/-- Byte `t` of pixel `(x, y)` is read back at the place of stream byte `bpp*(y*W + x) + t` (40_convert.md R109). -/
theorem storeStream_read_spec {f : Word → List Byte} (hf : ∀ p, (f p).length = c.bpp) (hconv : s.tie.conv = .spec)
    (hm : s.mem.Wf) (hr : c.checkRegions = none) {x y t : Nat} (hx : x < c.width) (hy : y < c.height) (ht : t < c.bpp) :
    some ((s.storeStream f c).mem.read (c.dst + ((c.bpp * (y * c.width + x) + t) ^^^ 4))) =
      (f (pixelAt s.mem (c.src + y * c.pitch + 4 * x)))[t]? := by
  have h := State.storeStream_read hf hm hr hx hy ht
  rw [hconv, Nat.mul_comm c.width y] at h
  exact h

/-- The two bytes of a 16-bit pixel after a conversion. -/
theorem storeStream_read_pixel16 (hbpp : c.bpp = 2) (hconv : s.tie.conv = .spec) (hm : s.mem.Wf)
    (hr : c.checkRegions = none) {x y : Nat} (hx : x < c.width) (hy : y < c.height) :
    (s.storeStream (stream16 .spec) c).mem.read (c.dst + ((2 * (y * c.width + x)) ^^^ 4)) =
        (rgb16 (pixelAt s.mem (c.src + y * c.pitch + 4 * x))).extractLsb' 0 8 ∧
      (s.storeStream (stream16 .spec) c).mem.read (c.dst + ((2 * (y * c.width + x) + 1) ^^^ 4)) =
        (rgb16 (pixelAt s.mem (c.src + y * c.pitch + 4 * x))).extractLsb' 8 8 := by
  have hf : ∀ p, (stream16 .spec p).length = c.bpp := hbpp ▸ length_stream16 .spec
  have hbyte := fun t => storeStream_read_spec (t := t) hf hconv hm hr hx hy
  simp only [hbpp, stream16_spec] at hbyte
  exact ⟨Option.some.inj (hbyte 0 (by omega)), Option.some.inj (hbyte 1 (by omega))⟩

/-- The three bytes of a 24-bit pixel after a conversion. -/
theorem storeStream_read_pixel24 (hbpp : c.bpp = 3) (hconv : s.tie.conv = .spec) (hm : s.mem.Wf)
    (hr : c.checkRegions = none) {x y : Nat} (hx : x < c.width) (hy : y < c.height) :
    (s.storeStream (stream24 .spec) c).mem.read (c.dst + ((3 * (y * c.width + x)) ^^^ 4)) =
        (pixelAt s.mem (c.src + y * c.pitch + 4 * x)).extractLsb' 16 8 ∧
      (s.storeStream (stream24 .spec) c).mem.read (c.dst + ((3 * (y * c.width + x) + 1) ^^^ 4)) =
        (pixelAt s.mem (c.src + y * c.pitch + 4 * x)).extractLsb' 8 8 ∧
      (s.storeStream (stream24 .spec) c).mem.read (c.dst + ((3 * (y * c.width + x) + 2) ^^^ 4)) =
        (pixelAt s.mem (c.src + y * c.pitch + 4 * x)).extractLsb' 0 8 := by
  have hf : ∀ p, (stream24 .spec p).length = c.bpp := hbpp ▸ length_stream24 .spec
  have hbyte := fun t => storeStream_read_spec (t := t) hf hconv hm hr hx hy
  simp only [hbpp, stream24_spec] at hbyte
  exact ⟨Option.some.inj (hbyte 0 (by omega)), Option.some.inj (hbyte 1 (by omega)), Option.some.inj (hbyte 2 (by omega))⟩

end

/-! ### The four commands when they complete -/

section
variable {s : State}

theorem exec_line16_completes (hconv : s.tie.conv = .spec) (hfits : LineFits 2 s) (hadm : LineAdmitted 2 s) :
    exec .line16 s = .next
      { s with mem := (s.storeStream (stream16 .spec) (lineOperands 2 s.latched)).mem, status := endedOk s } := by
  rw [exec_line16, hconv, convert_of_admitted (lineFits_iff.2 hfits) (lineAdmitted_iff.2 hadm)]

theorem exec_line24_completes (hconv : s.tie.conv = .spec) (hfits : LineFits 3 s) (hadm : LineAdmitted 3 s) :
    exec .line24 s = .next
      { s with mem := (s.storeStream (stream24 .spec) (lineOperands 3 s.latched)).mem, status := endedOk s } := by
  rw [exec_line24, hconv, convert_of_admitted (lineFits_iff.2 hfits) (lineAdmitted_iff.2 hadm)]

theorem exec_frame16_completes (hconv : s.tie.conv = .spec) (hfits : FrameFits 2 s) (hadm : FrameAdmitted 2 s) :
    exec .frame16 s = .next
      { s with mem := (s.storeStream (stream16 .spec) (frameOperands 2 s.latched)).mem, status := endedOk s } := by
  rw [exec_frame16, hconv, convert_of_admitted (frameFits_iff.2 hfits) (frameAdmitted_iff.2 hadm)]

theorem exec_frame24_completes (hconv : s.tie.conv = .spec) (hfits : FrameFits 3 s) (hadm : FrameAdmitted 3 s) :
    exec .frame24 s = .next
      { s with mem := (s.storeStream (stream24 .spec) (frameOperands 3 s.latched)).mem, status := endedOk s } := by
  rw [exec_frame24, hconv, convert_of_admitted (frameFits_iff.2 hfits) (frameAdmitted_iff.2 hadm)]

theorem line_written_iff {bpp a : Nat} :
    a ∈ (lineOperands bpp s.latched).writtenSet ↔ Written (D s) (bpp * W s) a := by
  rw [Conversion.mem_writtenSet, line_streamLen]
  rfl

end

/-- Settles O11: a line is a frame of one row, so its pixel `i` is pixel `(i, 0)`. -/
theorem line16Converts : Obligations.Line16Converts := by
  intro s hm hconv hfits hadm
  refine ⟨_, exec_line16_completes hconv hfits hadm, fun i hi => ?_,
    fun a ha => State.storeStream_read_other (length_stream16 .spec) (mt line_written_iff.1 ha)⟩
  have hpixel := storeStream_read_pixel16 (c := lineOperands 2 s.latched) rfl hconv hm (line_regions hfits) hi Nat.one_pos
  rw [Nat.zero_mul, Nat.zero_mul, Nat.zero_add, Nat.add_zero] at hpixel
  exact hpixel

/-- Settles O12, as O11. -/
theorem line24Converts : Obligations.Line24Converts := by
  intro s hm hconv hfits hadm
  refine ⟨_, exec_line24_completes hconv hfits hadm, fun i hi => ?_,
    fun a ha => State.storeStream_read_other (length_stream24 .spec) (mt line_written_iff.1 ha)⟩
  have hpixel := storeStream_read_pixel24 (c := lineOperands 3 s.latched) rfl hconv hm (line_regions hfits) hi Nat.one_pos
  rw [Nat.zero_mul, Nat.zero_mul, Nat.zero_add, Nat.add_zero] at hpixel
  exact hpixel

/-- Settles O13: a frame that passes its checks leaves the bytes of each pixel in their places and no others. -/
theorem frame16Converts : Obligations.Frame16Converts := by
  intro s hm hconv hfits hadm
  exact ⟨_, exec_frame16_completes hconv hfits hadm,
    fun y hy x hx =>
      storeStream_read_pixel16 (c := frameOperands 2 s.latched) rfl hconv hm (frame_regions hfits) hx hy,
    fun a ha => State.storeStream_read_other (length_stream16 .spec) (mt mem_writtenSet_iff.1 ha)⟩

/-- Settles O14, as O13. -/
theorem frame24Converts : Obligations.Frame24Converts := by
  intro s hm hconv hfits hadm
  exact ⟨_, exec_frame24_completes hconv hfits hadm,
    fun y hy x hx =>
      storeStream_read_pixel24 (c := frameOperands 3 s.latched) rfl hconv hm (frame_regions hfits) hx hy,
    fun a ha => State.storeStream_read_other (length_stream24 .spec) (mt mem_writtenSet_iff.1 ha)⟩

theorem conversionOf_of_mem {i : Instr} (hi : i ∈ conversions) (l : Latched) : ∃ c, conversionOf i l = some c := by
  simp only [conversions, List.mem_cons, List.not_mem_nil, or_false] at hi
  rcases hi with rfl | rfl | rfl | rfl <;> exact ⟨_, rfl⟩

/-- Settles O24: the stream depends on the source bytes alone, and a conversion writes none of its own source. -/
theorem conversionsAreRepeatable : Obligations.ConversionsAreRepeatable := by
  constructor
  · intro i hi s t hm ht hok
    obtain ⟨c, hc⟩ := conversionOf_of_mem hi s.latched
    obtain ⟨bytesOf, check, hexec, hf, hr, -⟩ := exec_conversion hc
    obtain rfl := Host.Outcome.next.inj ((hexec s rfl).symm.trans ht)
    obtain ⟨rfl, hadm⟩ := State.convert_of_no_error hok
    have hdone : s.convert (bytesOf s.tie.conv) none c = (s.storeStream (bytesOf s.tie.conv) c).complete := if_pos hadm
    rw [hdone]
    exact (hexec (s.storeStream (bytesOf s.tie.conv) c).complete rfl).trans
      (congrArg _ (State.convert_completed (hf _) hm (hr rfl) hadm))
  · intro i _ s₁ s₂ t₁ t₂ c hm₁ hm₂ hl htie hc hsrc ht₁ ht₂ hok₁ hok₂ a ha
    obtain ⟨bytesOf, check, hexec, hf, hr, -⟩ := exec_conversion hc
    obtain rfl := Host.Outcome.next.inj ((hexec s₁ rfl).symm.trans ht₁)
    obtain rfl := Host.Outcome.next.inj ((hexec s₂ hl.symm).symm.trans ht₂)
    obtain ⟨rfl, hadm₁⟩ := State.convert_of_no_error hok₁
    obtain ⟨-, hadm₂⟩ := State.convert_of_no_error hok₂
    rw [convert_of_admitted rfl hadm₁, convert_of_admitted rfl hadm₂, ← htie]
    refine State.storeStream_read_congr (hf _) hm₁ hm₂ (hr rfl) htie (fun b hb => ?_) (mem_writtenSet_iff.2 ha)
    obtain ⟨y, hy, x, hx, j, hj, rfl⟩ := c.mem_srcBytes.1 hb
    exact hsrc y hy x hx j hj

end Sys2Proof.Claims
end

section
/-! PROOFS. A frame is its lines, and each line its pixels: the loops of 40_convert.md R111 to R114, and R118. -/

namespace Sys2Proof.Machine

/-! ### The rows of a frame -/

/-- The first `n` rows of a frame. -/
def Conversion.rows (c : Conversion) (n : Nat) : Conversion := { c with height := n }

/-- Row `y` of a frame as a line (40_convert.md R118). -/
def Conversion.line (c : Conversion) (y : Nat) : Conversion :=
  { src := c.src + y * c.pitch, dst := c.dst + y * (c.bpp * c.width), width := c.width, height := 1, pitch := 0,
    bpp := c.bpp }

variable {f : Word → List Byte} {c : Conversion} {s : State} {y : Nat}

theorem Conversion.pixelAddrs_line : (c.line y).pixelAddrs = c.lineAddrs y := by
  simp [Conversion.pixelAddrs, Conversion.lineAddrs, Conversion.line]

theorem Conversion.streamLen_line : (c.line y).streamLen = c.bpp * c.width := Nat.mul_one _

theorem Conversion.srcSpan_line : (c.line y).srcSpan = 4 * c.width := by
  simp [Conversion.srcSpan, Conversion.line]

theorem Conversion.pixelAddrs_rows_succ : (c.rows (y + 1)).pixelAddrs = (c.rows y).pixelAddrs ++ c.lineAddrs y := by
  have hlines : ∀ n, (c.rows n).pixelAddrs = (List.range n).flatMap c.lineAddrs := fun _ => rfl
  rw [hlines, hlines, List.range_succ, List.flatMap_append, List.flatMap_singleton]

theorem Conversion.stream_rows_succ (o : ByteOrder) (m : Memory) :
    (c.rows (y + 1)).stream o f m = (c.rows y).stream o f m ++ (c.line y).stream o f m := by
  unfold Conversion.stream
  rw [Conversion.pixelAddrs_rows_succ, List.flatMap_append, Conversion.pixelAddrs_line]

theorem Conversion.mem_srcBytes_of_line (hy : y < c.height) {a : Nat} (ha : a ∈ (c.line y).srcBytes) :
    a ∈ c.srcBytes := by
  obtain ⟨z, -, x, hx, j, hj, rfl⟩ := (c.line y).mem_srcBytes.1 ha
  exact c.mem_srcBytes.2 ⟨y, hy, x, hx, j, hj, rfl⟩

theorem Conversion.mem_writtenSet_of_rows (hy : y ≤ c.height) {a : Nat} (ha : a ∈ (c.rows y).writtenSet) :
    a ∈ c.writtenSet := by
  obtain ⟨k, hk, rfl⟩ := (c.rows y).mem_writtenSet.1 ha
  exact c.mem_writtenSet.2 ⟨k, lt_of_lt_of_le hk (Nat.mul_le_mul_left _ hy), rfl⟩

/-- The rows before row `y` leave the source of row `y` as it was. -/
theorem State.storeStream_rows_read_line (hf : ∀ p, (f p).length = c.bpp) (hr : c.checkRegions = none)
    (hy : y < c.height) {a : Nat} (ha : a ∈ (c.line y).srcBytes) :
    (s.storeStream f (c.rows y)).mem.read a = s.mem.read a := by
  refine State.storeStream_read_other (c := c.rows y) hf fun hmem => ?_
  obtain ⟨k, hk, he⟩ := c.mem_writtenSet.1 (Conversion.mem_writtenSet_of_rows hy.le hmem)
  exact c.src_not_written hr (Conversion.mem_srcBytes_of_line hy ha) hk he

/-- One more row is placed after the rows before it, read from the memory they have left. -/
theorem State.storeStream_rows_succ (hf : ∀ p, (f p).length = c.bpp) (hr : c.checkRegions = none) (hy : y < c.height) :
    (s.storeStream f (c.rows (y + 1))).mem =
      Memory.place c.dst (c.bpp * c.width * y)
        ((c.line y).stream s.tie.conv.srcOrder f (s.storeStream f (c.rows y)).mem) (s.storeStream f (c.rows y)).mem := by
  have hstream : (c.line y).stream s.tie.conv.srcOrder f (s.storeStream f (c.rows y)).mem =
      (c.line y).stream s.tie.conv.srcOrder f s.mem :=
    Conversion.stream_congr _ f fun a ha => State.storeStream_rows_read_line hf hr hy ha
  have hlen : ((c.rows y).stream s.tie.conv.srcOrder f s.mem).length = c.bpp * c.width * y :=
    Conversion.length_stream (c := c.rows y) hf _ _
  rw [hstream, State.storeStream_mem, Conversion.stream_rows_succ, Memory.place_append, Nat.zero_add, hlen]
  rfl

/-! ### A row of whole groups as a line command (40_convert.md R118) -/

/-- A base that is whole groups further on is a stream index that is as much further on. -/
theorem Memory.place_add_groups (d q k : Nat) (bs : List Byte) (m : Memory) :
    Memory.place (d + 8 * q) k bs m = Memory.place d (8 * q + k) bs m := by
  induction bs generalizing k m with
  | nil => rfl
  | cons b bs ih => rw [Memory.place, Memory.place, swizzle_add_of_dvd, ih, Nat.add_assoc, Nat.add_assoc]

/-- Rows of whole groups are whole groups. -/
theorem mul_eq_groups {n : Nat} (h8 : n % 8 = 0) (y : Nat) : y * n = 8 * (y * (n / 8)) := by
  rw [Nat.mul_left_comm, Nat.mul_div_cancel' (Nat.dvd_of_mod_eq_zero h8)]

theorem Conversion.line_dst_eq_groups (h8 : c.bpp * c.width % 8 = 0) :
    (c.line y).dst = c.dst + 8 * (y * (c.bpp * c.width / 8)) := congrArg (c.dst + ·) (mul_eq_groups h8 y)

/-- The stream bytes of row `y` end within those of the frame. -/
theorem Conversion.row_end_le_streamLen (hy : y < c.height) :
    y * (c.bpp * c.width) + c.bpp * c.width ≤ c.streamLen := by
  rw [← Nat.succ_mul, Nat.mul_comm]
  exact Nat.mul_le_mul_left _ hy

theorem Conversion.line_checkLine (hcheck : c.checkFrame = none) (h8 : c.bpp * c.width % 8 = 0) (hy : y < c.height) :
    (c.line y).checkLine = none := by
  obtain ⟨-, ⟨hsrc, hpitch, hdst⟩, hr⟩ := c.checkFrame_none.1 hcheck
  obtain ⟨⟨hspan, hwindow⟩, hapart⟩ := c.checkRegions_none.1 hr
  have hrow : y * c.pitch ≤ (c.height - 1) * c.pitch := Nat.mul_le_mul_right _ (by omega)
  have hend := Conversion.row_end_le_streamLen hy
  have hgroups : y * (c.bpp * c.width) % 8 = 0 := by rw [Nat.mul_mod, h8, Nat.mul_zero, Nat.zero_mod]
  have hrows : y * c.pitch % 4 = 0 := by rw [Nat.mul_mod, hpitch, Nat.mul_zero, Nat.zero_mod]
  have hlsrc : (c.line y).src = c.src + y * c.pitch := rfl
  have hldst : (c.line y).dst = c.dst + y * (c.bpp * c.width) := rfl
  rw [Conversion.checkLine_none, Conversion.checkRegions_none, Conversion.srcSpan_line, Conversion.windowLen,
    Conversion.streamLen_line, hlsrc, hldst]
  unfold Conversion.windowLen ceil8 at *
  unfold Conversion.srcSpan at *
  omega

theorem Conversion.line_admitted {tie : TieOffs} (ha : c.admitted tie = true) (h8 : c.bpp * c.width % 8 = 0)
    (hy : y < c.height) : (c.line y).admitted tie = true := by
  obtain ⟨hsrc, hdst⟩ := c.admitted_iff.1 ha
  refine (c.line y).admitted_iff.2 ⟨fun a h => hsrc a (Conversion.mem_srcBytes_of_line hy h), fun a h => hdst a ?_⟩
  obtain ⟨k, hk, rfl⟩ := (c.line y).mem_writtenSet.1 h
  rw [Conversion.streamLen_line] at hk
  have hend := Conversion.row_end_le_streamLen hy
  have hgroups := mul_eq_groups h8 y
  have hlt : 8 * (y * (c.bpp * c.width / 8)) + k < c.streamLen := by omega
  rw [Conversion.line_dst_eq_groups h8, Nat.add_assoc, ← swizzle_add_of_dvd]
  exact c.mem_writtenSet.2 ⟨_, hlt, rfl⟩

/-- The line command of row `y`, run on what the rows before it have left, leaves what the rows up to it leave. -/
theorem State.storeStream_line {t : State} (hf : ∀ p, (f p).length = c.bpp) (hr : c.checkRegions = none)
    (h8 : c.bpp * c.width % 8 = 0) (hy : y < c.height) (htie : t.tie = s.tie)
    (hmem : t.mem = (s.storeStream f (c.rows y)).mem) :
    (t.storeStream f (c.line y)).mem = (s.storeStream f (c.rows (y + 1))).mem := by
  rw [State.storeStream_rows_succ hf hr hy, State.storeStream_mem, Conversion.line_dst_eq_groups h8,
    Memory.place_add_groups, Nat.add_zero, ← mul_eq_groups h8 y, Nat.mul_comm y, htie, hmem]

/-! ### A frame of one row -/

/-- `State.convert` depends on its operands through the pixels, the destination and the stream length. -/
theorem State.convert_congr {check : Option ErrCode} {d : Conversion} (hpixels : c.pixelAddrs = d.pixelAddrs)
    (hdst : c.dst = d.dst) (hlen : c.streamLen = d.streamLen) : s.convert f check c = s.convert f check d := by
  have hset : c.writtenSet = d.writtenSet := by rw [Conversion.writtenSet, hdst, hlen, Conversion.writtenSet]
  have hadmitted : c.admitted s.tie = d.admitted s.tie := by
    rw [Conversion.admitted, Conversion.srcBytes, hpixels, hset, Conversion.admitted, Conversion.srcBytes]
  have hstore : s.storeStream f c = s.storeStream f d := by
    rw [State.storeStream, Conversion.stream, hpixels, hdst, State.storeStream, Conversion.stream]
  unfold State.convert
  rw [hadmitted, hstore, hset]

theorem State.convert_of_one_row {check : Option ErrCode} (h : c.height = 1) :
    s.convert f check c = s.convert f check (c.line 0) := by
  refine State.convert_congr ?_ (by simp [Conversion.line]) ?_
  · rw [Conversion.pixelAddrs_line, Conversion.pixelAddrs, h, List.range_one, List.flatMap_singleton]
  · rw [Conversion.streamLen_line, Conversion.streamLen, h, Nat.mul_one]

/-- The checks of a frame of one row with a pitch that the frame accepts are those of the line. -/
theorem Conversion.checkFrame_of_one_row (h : c.height = 1) (hw : c.width ≠ 0) (hp : 4 * c.width ≤ c.pitch)
    (hp4 : c.pitch % 4 = 0) : c.checkFrame = (c.line 0).checkLine := by
  have hspan : c.srcSpan = 4 * c.width := by simp [Conversion.srcSpan, h]
  have hlen : c.streamLen = c.bpp * c.width := by rw [Conversion.streamLen, h, Nat.mul_one]
  have hregions : (c.line 0).checkRegions = c.checkRegions := by
    unfold Conversion.checkRegions Conversion.windowLen
    rw [Conversion.srcSpan_line, Conversion.streamLen_line, hspan, hlen]
    simp [Conversion.line]
  have hsrc : (c.line 0).src = c.src := by simp [Conversion.line]
  have hdst : (c.line 0).dst = c.dst := by simp [Conversion.line]
  have hdim : ¬ (c.width = 0 ∨ c.height = 0 ∨ c.pitch < 4 * c.width) := by omega
  unfold Conversion.checkFrame Conversion.checkLine
  simp only [if_neg hdim, hregions, hsrc, hdst, hp4, ne_eq, not_true_eq_false, false_or]

end Sys2Proof.Machine

namespace Sys2Proof.Claims

open Sys2Proof.Machine

/-! ### The loops of R111 to R114 -/

theorem putPixel16_eq_place (dst j a : Nat) (m : Memory) :
    putPixel16 dst j a m = Memory.place dst (2 * j) (stream16 .spec (m.readWord .le a)) m := by
  rw [stream16_spec]
  rfl

theorem putPixel24_eq_place (dst j a : Nat) (m : Memory) :
    putPixel24 dst j a m = Memory.place dst (3 * j) (stream24 .spec (m.readWord .le a)) m := rfl

theorem lineLoop_eq_frameLoop (put : Nat → Nat → Nat → Memory → Memory) (src dst n : Nat) (m : Memory) :
    lineLoop put src dst n m = frameLoop put src dst n 1 0 m := by
  simp [lineLoop, frameLoop]

section
variable {put : Nat → Nat → Nat → Memory → Memory} {f : Word → List Byte} {o : ByteOrder} {dst bpp : Nat}

/-- A loop that places one pixel after the other, none over the source of a later one, places their stream. -/
theorem foldl_put_eq_place (hf : ∀ p, (f p).length = bpp)
    (hput : ∀ j a m, put dst j a m = Memory.place dst (bpp * j) (f (m.readWord o a)) m)
    (addr : Nat → Nat) (j n : Nat) (m : Memory)
    (hapart : ∀ x < n, ∀ i < 4, ∀ k < bpp * (j + n), addr x + i ≠ dst + swizzle k) :
    (List.range n).foldl (fun m x => put dst (j + x) (addr x) m) m =
      Memory.place dst (bpp * j) ((List.range n).flatMap fun x => f (m.readWord o (addr x))) m := by
  induction n with
  | zero => rfl
  | succ n ih =>
    have hlen : ((List.range n).flatMap fun x => f (m.readWord o (addr x))).length = bpp * n := by
      rw [length_flatMap_const (fun _ => hf _), List.length_range]
    have hle : bpp * (j + n) ≤ bpp * (j + (n + 1)) := Nat.mul_le_mul_left _ (by omega)
    have hfirst := ih fun x hx i hi k hk => hapart x (by omega) i hi k (by omega)
    have hread : (Memory.place dst (bpp * j) ((List.range n).flatMap fun x => f (m.readWord o (addr x))) m).readWord o
        (addr n) = m.readWord o (addr n) := by
      refine Memory.readWord_congr o fun i hi => Memory.read_place_other fun k hk => ?_
      rw [hlen] at hk
      exact hapart n (by omega) i hi _ (by rw [Nat.mul_add] at hle; omega)
    rw [List.range_succ, List.foldl_append, hfirst, List.foldl_cons, List.foldl_nil, hput, hread, List.flatMap_append,
      List.flatMap_singleton, Memory.place_append, hlen, Nat.mul_add]

end

/-- The loop over the first `n` rows leaves what placing their stream leaves. -/
theorem frameLoop_eq_storeStream {put : Nat → Nat → Nat → Memory → Memory} {f : Word → List Byte} {c : Conversion}
    {s : State} (hf : ∀ p, (f p).length = c.bpp) (hr : c.checkRegions = none)
    (hput : ∀ j a m, put c.dst j a m = Memory.place c.dst (c.bpp * j) (f (m.readWord s.tie.conv.srcOrder a)) m)
    (n : Nat) (hn : n ≤ c.height) :
    frameLoop put c.src c.dst c.width n c.pitch s.mem = (s.storeStream f (c.rows n)).mem := by
  induction n with
  | zero => rfl
  | succ n ih =>
    have hapart : ∀ x < c.width, ∀ i < 4, ∀ k < c.bpp * (n * c.width + c.width),
        c.src + n * c.pitch + 4 * x + i ≠ c.dst + swizzle k := by
      intro x hx i hi k hk
      have hend := Conversion.row_end_le_streamLen (c := c) (y := n) hn
      rw [Nat.mul_add, Nat.mul_left_comm] at hk
      exact c.src_not_written hr (c.mem_srcBytes.2 ⟨n, hn, x, hx, i, hi, rfl⟩) (by omega)
    have hrow := foldl_put_eq_place hf hput (fun x => c.src + n * c.pitch + 4 * x) (n * c.width) c.width
      (s.storeStream f (c.rows n)).mem hapart
    rw [State.storeStream_rows_succ hf hr hn, ← ih (by omega), Nat.mul_assoc, Nat.mul_comm c.width n]
    rw [← ih (by omega)] at hrow
    rw [frameLoop, List.range_succ, List.foldl_append]
    refine hrow.trans ?_
    rw [Conversion.stream, Conversion.pixelAddrs_line, Conversion.lineAddrs, List.flatMap_map]

section
variable {c : Conversion} {s : State}

theorem frameLoop_putPixel16 (hbpp : c.bpp = 2) (hconv : s.tie.conv = .spec) (hr : c.checkRegions = none) :
    frameLoop putPixel16 c.src c.dst c.width c.height c.pitch s.mem = (s.storeStream (stream16 .spec) c).mem := by
  refine frameLoop_eq_storeStream (hbpp ▸ length_stream16 .spec) hr (fun j a m => ?_) c.height le_rfl
  rw [hbpp, hconv]
  exact putPixel16_eq_place _ _ _ _

theorem frameLoop_putPixel24 (hbpp : c.bpp = 3) (hconv : s.tie.conv = .spec) (hr : c.checkRegions = none) :
    frameLoop putPixel24 c.src c.dst c.width c.height c.pitch s.mem = (s.storeStream (stream24 .spec) c).mem := by
  refine frameLoop_eq_storeStream (hbpp ▸ length_stream24 .spec) hr (fun j a m => ?_) c.height le_rfl
  rw [hbpp, hconv]
  exact putPixel24_eq_place _ _ _ _

end

/-- Settles O15: a line is a frame of one row, and the loop over the rows of a frame places its whole stream. -/
theorem conversionsRunThePseudocode : Obligations.ConversionsRunThePseudocode := by
  intro s hconv
  refine ⟨fun hfits hadm => ?_, fun hfits hadm => ?_, fun hfits hadm => ?_, fun hfits hadm => ?_⟩
  · rw [exec_line16_completes hconv hfits hadm, ← frameLoop_putPixel16 rfl hconv (line_regions hfits),
      lineLoop_eq_frameLoop]
    rfl
  · rw [exec_line24_completes hconv hfits hadm, ← frameLoop_putPixel24 rfl hconv (line_regions hfits),
      lineLoop_eq_frameLoop]
    rfl
  · rw [exec_frame16_completes hconv hfits hadm, ← frameLoop_putPixel16 rfl hconv (frame_regions hfits)]
    rfl
  · rw [exec_frame24_completes hconv hfits hadm, ← frameLoop_putPixel24 rfl hconv (frame_regions hfits)]
    rfl

/-! ### Lines and frames (40_convert.md R118) -/

theorem line_zero_of_frameOperands (bpp : Nat) (l : Latched) : (frameOperands bpp l).line 0 = lineOperands bpp l := by
  simp [Conversion.line, frameOperands, lineOperands]

/-- Settles O22: row 0 of the frame is the line of the same operands. -/
theorem oneLineFrameIsLine : Obligations.OneLineFrameIsLine := by
  intro s hh hw hp hp4
  have hchecks : ∀ bpp, (frameOperands bpp s.latched).checkFrame = (lineOperands bpp s.latched).checkLine := fun bpp => by
    rw [← line_zero_of_frameOperands]
    exact Conversion.checkFrame_of_one_row hh hw hp hp4
  have hconvert : ∀ bpp f check, s.convert f check (frameOperands bpp s.latched) =
      s.convert f check (lineOperands bpp s.latched) := fun bpp f check => by
    rw [← line_zero_of_frameOperands]
    exact State.convert_of_one_row hh
  rw [exec_frame16, exec_frame24, hchecks, hchecks, hconvert, hconvert]
  exact ⟨rfl, rfl⟩

/-- The operands of `lineOfFrame` are row `y` of the frame: its addresses are in memory, so they fit in a register. -/
theorem lineOperands_lineOfFrame {bpp : Nat} {s : State} (hfits : FrameFits bpp s) {y : Nat} (hy : y < H s)
    (hbpp : bpp ≠ 0) (m : Memory) :
    lineOperands bpp (lineOfFrame bpp s y m).latched = (frameOperands bpp s.latched).line y := by
  obtain ⟨⟨hw, -, -⟩, -, ⟨hsrc, hdst⟩, -⟩ := hfits
  have hrow : y * P s ≤ (H s - 1) * P s := Nat.mul_le_mul_right _ (by omega)
  have hend : y * (bpp * W s) + bpp * W s ≤ bpp * W s * H s :=
    Conversion.row_end_le_streamLen (c := frameOperands bpp s.latched) hy
  have hpos : 0 < bpp * W s := Nat.mul_pos (by omega) (by omega)
  have hs : (BitVec.ofNat 32 (S s + y * P s)).toNat = S s + y * P s := by
    rw [BitVec.toNat_ofNat]
    unfold frameSpan at hsrc
    exact Nat.mod_eq_of_lt (by omega)
  have hd : (BitVec.ofNat 32 (D s + y * (bpp * W s))).toNat = D s + y * (bpp * W s) := by
    rw [BitVec.toNat_ofNat]
    unfold up8 at hdst
    exact Nat.mod_eq_of_lt (by omega)
  simp only [lineOperands, lineOfFrame, hs, hd]
  rfl

/-- The memory the first `y` rows of a frame leave. -/
def rowsMem (f : Word → List Byte) (bpp : Nat) (s : State) (y : Nat) : Memory :=
  (s.storeStream f ((frameOperands bpp s.latched).rows y)).mem

theorem storeStream_lineOfFrame {bpp : Nat} {f : Word → List Byte} {s : State} {y : Nat} (hf : ∀ p, (f p).length = bpp)
    (hfits : FrameFits bpp s) (h8 : bpp * W s % 8 = 0) (hy : y < H s) :
    ((lineOfFrame bpp s y (rowsMem f bpp s y)).storeStream f ((frameOperands bpp s.latched).line y)).mem =
      rowsMem f bpp s (y + 1) :=
  State.storeStream_line (s := s) hf (frame_regions hfits) h8 hy rfl rfl

/-- The line command on row `y` of a frame of whole groups completes, whatever stands in memory. -/
theorem exec_lineOfFrame {li : Instr} {bpp : Nat} {bytesOf : ConvParams → Word → List Byte} {s : State} {y : Nat}
    (hline : ∀ s : State, exec li s =
      .next (s.convert (bytesOf s.tie.conv) (lineOperands bpp s.latched).checkLine (lineOperands bpp s.latched)))
    (hfits : FrameFits bpp s) (hadm : FrameAdmitted bpp s) (h8 : bpp * W s % 8 = 0) (hy : y < H s) (hbpp : bpp ≠ 0)
    (m : Memory) :
    exec li (lineOfFrame bpp s y m) = .next
      { lineOfFrame bpp s y ((lineOfFrame bpp s y m).storeStream (bytesOf s.tie.conv)
          ((frameOperands bpp s.latched).line y)).mem with status := endedOk s } := by
  have hcheck := Conversion.line_checkLine (frameFits_iff.2 hfits) h8 hy
  have hadmitted := Conversion.line_admitted (frameAdmitted_iff.2 hadm) h8 hy
  rw [hline, lineOperands_lineOfFrame hfits hy hbpp, convert_of_admitted (s := lineOfFrame bpp s y m) hcheck hadmitted]
  rfl

/-- Settles O23: the memories are those the first rows of the frame leave. -/
theorem frameIsItsLines : Obligations.FrameIsItsLines := by
  intro fi li bpp hmem s hfits hadm h8
  obtain ⟨bytesOf, hlen, hline, hframe⟩ := exec_line_frame hmem
  have hbpp : bpp ≠ 0 := by
    rintro rfl
    simp at hmem
  refine ⟨rowsMem (bytesOf s.tie.conv) bpp s, rfl, fun y hy => ?_, ?_⟩
  · rw [exec_lineOfFrame hline hfits hadm h8 hy hbpp, storeStream_lineOfFrame (hlen s.tie.conv) hfits h8 hy]
  · rw [hframe, convert_of_admitted (frameFits_iff.2 hfits) (frameAdmitted_iff.2 hadm)]
    rfl

end Sys2Proof.Claims
end

section
/-! PROOFS. PLLSYN (41_pll.md): its functions, what the search finds, and the ways the command ends. -/

namespace Sys2Proof.Machine

open Sys2Proof.Claims

/-! ### What the search visits and what it finds (41_pll.md R147 to R149) -/

theorem ppm_eq_ppmOf : ppm = ppmOf := rfl

/-- A frequency that is `dv` times the target is met exactly (41_pll.md R148, R156). -/
theorem ppmOf_exact {dv ta : Nat} (hdv : 0 < dv) (hta : 0 < ta) : ppmOf (dv * ta) dv ta = 0 := by
  rw [ppmOf, Nat.mul_div_cancel_left _ (Nat.mul_pos hdv hta)]
  rfl

/-- The candidates are the visited triples, each with its own frequency and error. -/
theorem mem_candidates_iff_visited {pll : PllParams} {target : Nat} {x : Triple} :
    x ∈ candidates ppm pll target ↔
      Visited pll x.p x.m x.dv ∧ x.vco = pll.fRef * x.m / x.p ∧ x.err = ppmOf x.vco x.dv target := by
  rw [mem_candidates, ppm_eq_ppmOf]
  constructor
  · rintro ⟨hp, ⟨hm1, hm2⟩, hdv, hv, ⟨hlo, hhi⟩, he⟩
    rw [vco] at hv
    exact ⟨⟨hp, hm1, hm2, hdv, hv ▸ hlo, hv ▸ hhi⟩, hv, he⟩
  · rintro ⟨⟨hp, hm1, hm2, hdv, hlo, hhi⟩, hv, he⟩
    exact ⟨hp, ⟨hm1, hm2⟩, hdv, hv, ⟨hv ▸ hlo, hv ▸ hhi⟩, he⟩

theorem mem_candidates_of_visited {pll : PllParams} {target p m dv : Nat} (h : Visited pll p m dv) :
    (⟨p, m, dv, pll.fRef * m / p, ppmOf (pll.fRef * m / p) dv target⟩ : Triple) ∈ candidates ppm pll target :=
  mem_candidates_iff_visited.2 ⟨h, rfl, rfl⟩

theorem search_eq_none_iff {pll : PllParams} {target : Nat} :
    search ppm pll target = none ↔ ∀ p m dv, ¬ Visited pll p m dv := by
  rw [search, bestOf_none_eq_none, List.eq_nil_iff_forall_not_mem]
  exact ⟨fun h p m dv hv => h _ (mem_candidates_of_visited hv), fun h x hx => h _ _ _ (mem_candidates_iff_visited.1 hx).1⟩

/-- In a list in the order of visits, every element has a larger error than the first of least error, or the same error
and no earlier place. -/
theorem FirstMinimum.le_or_notAfter {b x : Triple} {l : List Triple} (h : FirstMinimum b l)
    (hl : l.Pairwise Triple.Before) (hx : x ∈ l) :
    b.err < x.err ∨ b.err = x.err ∧ NotAfter b.p b.m b.dv x.p x.m x.dv := by
  obtain ⟨l₁, l₂, rfl, hbefore, hafter⟩ := h
  obtain ⟨-, htail, -⟩ := List.pairwise_append.1 hl
  rcases List.mem_append.1 hx with hx | hx
  · exact .inl (hbefore x hx)
  rcases List.mem_cons.1 hx with rfl | hx
  · exact .inr ⟨rfl, .inr ⟨rfl, .inr ⟨rfl, le_rfl⟩⟩⟩
  · have hplace : b.Before x := (List.pairwise_cons.1 htail).1 x hx
    have hle := hafter x hx
    unfold Triple.Before at hplace
    omega

/-- What the search finds against any visited triple (41_pll.md R149). -/
theorem search_le_or_notAfter {pll : PllParams} {target p m dv : Nat} {b : Triple}
    (hsorted : pll.divisors.Pairwise (· < ·)) (hb : search ppm pll target = some b) (hv : Visited pll p m dv) :
    b.err < ppmOf (pll.fRef * m / p) dv target ∨
      b.err = ppmOf (pll.fRef * m / p) dv target ∧ NotAfter b.p b.m b.dv p m dv :=
  (bestOf_none_some hb).le_or_notAfter (candidates_in_order hsorted) (mem_candidates_of_visited hv)

/-- When a visited triple meets the target exactly, the search finds one of error 0 (41_pll.md R156). -/
theorem exists_search_of_exact {pll : PllParams} {target p m dv : Nat} (hw : pll.Wf) (hta : 0 < target)
    (hv : Visited pll p m dv) (he : pll.fRef * m / p = dv * target) :
    ∃ b, search ppm pll target = some b ∧ b.err = 0 := by
  obtain ⟨-, -, -, ⟨-, hsorted, hbounds⟩, -⟩ := hw
  have ⟨_, _, _, hdv, _⟩ := hv
  have hfound : search ppm pll target ≠ none := fun h => search_eq_none_iff.1 h p m dv hv
  obtain ⟨b, hb⟩ := Option.ne_none_iff_exists'.1 hfound
  have hmin := search_le_or_notAfter hsorted hb hv
  rw [he, ppmOf_exact (hbounds dv hdv).1 hta] at hmin
  exact ⟨b, hb, by omega⟩

/-! ### The result registers (41_pll.md R152) -/

theorem cfgWord_eq_ofNat {b p m : Nat} (hb : b < 4) (hp : p < 4) (hm : m < 256) :
    cfgWord b p m = BitVec.ofNat 32 (4096 * b + 256 * p + m) := by
  apply BitVec.eq_of_toNat_eq
  rw [cfgWord_toNat hb hp hm, BitVec.toNat_ofNat, Nat.mod_eq_of_lt (by omega)]

/-- What an accepted adjustment puts in PLL_TOTAL (41_pll.md R158). -/
theorem writeResult_total {s : State} {r : Accepted} (h : synthesize ppm s.tie.pll (clk s) (tot s) = some r) :
    ((s.writeResult r).regs.pllTotal.toNat : Int) = (tot s : Int) + (s.writeResult r).regs.pllAdj.toInt := by
  obtain ⟨hmem, htry⟩ := synthesize_some h
  obtain ⟨⟨hlo, hhi⟩, -, -, -, -, htotal⟩ := tryAdjustment_some.1 htry
  have hadj : (BitVec.ofInt 32 r.adj).toInt = r.adj := by
    have hbounds := mem_adjSeq_bounds hmem
    rw [BitVec.toInt_ofInt]
    apply Int.bmod_eq_of_le <;> omega
  rw [State.writeResult_regs_pllTotal, State.writeResult_regs_pllAdj, hadj, BitVec.toNat_ofNat, htotal,
    Nat.mod_eq_of_lt (by omega), Int.toNat_of_nonneg (by omega)]

/-! ### The ways PLLSYN ends (41_pll.md R141, R142, R152, R153) -/

/-- PLLSYN that answers a next state has raised an error or found a configuration. -/
theorem exec_pllsyn_next {s t : State} (h : exec .pllsyn s = .next t) :
    (∃ code, t = s.raiseError code) ∨
      ∃ r, s.tie.pll.Wf ∧ synthesize ppm s.tie.pll (clk s) (tot s) = some r ∧ t = (s.writeResult r).complete := by
  cases exec_next h with
  | nop hi => cases hi
  | error code => exact .inl ⟨code, rfl⟩
  | converted _ _ hc => cases hc
  | bus _ hc => cases hc
  | found r _ _ hw hs => exact .inr ⟨r, hw, hs, rfl⟩

end Sys2Proof.Machine

namespace Sys2Proof.Claims

open Sys2Proof.Machine

/-! ### The adjustments in order (41_pll.md R143, R153, R154) -/

theorem synthesize_of_rejects {s : State} (h : ∀ a ∈ adjustments, Rejects s a) :
    synthesize ppm s.tie.pll (clk s) (tot s) = none := by
  rw [synthesize, adjSeq_eq, List.findSome?_eq_none_iff]
  exact fun a ha => tryAdjustment_none_iff.2 (h a ha)

theorem synthesize_of_first_accepted {s : State} {pre post : List Int} {a : Int} {b : Triple}
    (hadj : adjustments = pre ++ a :: post) (hpre : ∀ a' ∈ pre, Rejects s a') (h : Accepts s a b) :
    synthesize ppm s.tie.pll (clk s) (tot s) = some ⟨b, a, ((tot s : Int) + a).toNat⟩ := by
  have hnone : pre.findSome? (tryAdjustment ppm s.tie.pll (clk s) (tot s)) = none :=
    List.findSome?_eq_none_iff.2 fun a' ha' => tryAdjustment_none_iff.2 (hpre a' ha')
  rw [synthesize, adjSeq_eq, hadj, List.findSome?_append, hnone, Option.none_or, List.findSome?_cons,
    tryAdjustment_of_accepts h]

theorem tot_pos_lt {s : State} (h : tot s ≠ 0) : 0 < tot s ∧ tot s < 2 ^ 32 :=
  ⟨Nat.pos_of_ne_zero h, s.latched.baseTotal.isLt⟩

/-- The adjusted clock of adjustment 0 is the target (41_pll.md R145). -/
theorem adjClk_zero {s : State} (h : tot s ≠ 0) : adjClk s 0 = clk s := by
  rw [adjClk, Int.add_zero, Int.toNat_natCast, Nat.mul_div_cancel _ (Nat.pos_of_ne_zero h)]

/-! ### The obligations -/

/-- Settles O35: the edges at or below the frequency come before the others. -/
theorem bandCodeOfFrequency : Obligations.BandCodeOfFrequency := by
  intro pll v h12 h23
  unfold band
  refine ⟨fun h => ?_, fun h1 h2 => ?_, fun h2 h3 => ?_, fun h3 => ?_⟩
  · rw [if_neg (by omega), if_neg (by omega), if_neg (by omega)]
  · rw [if_pos h1, if_neg (by omega), if_neg (by omega)]
  · rw [if_pos (by omega), if_pos h2, if_neg (by omega)]
  · rw [if_pos (by omega), if_pos (by omega), if_pos h3]

/-- Settles O36: either prescaler divides an even reference. -/
theorem vcoReadingsAgreeForEvenReference : Obligations.VcoReadingsAgreeForEvenReference := by
  intro pll p m
  refine ⟨rfl, fun heven hp => ?_⟩
  have hdvd : p ∣ pll.fRef := by
    rcases hp with rfl | rfl
    · exact Nat.one_dvd _
    · exact Nat.dvd_of_mod_eq_zero heven
  exact (Nat.div_mul_right_comm hdvd m).symm

/-- Settles O27: both checks stand before the search, BAD_CLOCK first. -/
theorem pllsynArgumentChecks : Obligations.PllsynArgumentChecks := by
  intro s hpresent hw
  have hpll : ¬ s.tie.pllPresent = false := by simp [hpresent]
  refine ⟨fun (hzero : s.latched.targetClk.toNat = 0 ∨ s.latched.baseTotal.toNat = 0) => ?_, fun hclk htot hmax => ?_⟩
  · rw [exec, execPllsyn, if_neg hpll, if_pos hzero, raiseError_eq]
  · have hargs : ¬ (s.latched.targetClk.toNat = 0 ∨ s.latched.baseTotal.toNat = 0) := not_or.2 ⟨hclk, htot⟩
    have hhigh : s.latched.targetClk.toNat > s.tie.pll.clockMax := hmax
    rw [exec, execPllsyn, if_neg hpll, if_neg hargs, if_neg (not_not.2 hw), if_pos hhigh, raiseError_eq]

/-- Settles O25: the adjustments before `a` answer nothing, so `write_result` gets the best triple of `a`. -/
theorem pllsynWritesFirstAccepted : Obligations.PllsynWritesFirstAccepted := by
  intro s pre post a b hready hadj hpre hacc
  rw [exec_pllsyn_ready hready, synthesize_of_first_accepted hadj hpre hacc]
  obtain ⟨⟨hlo, -⟩, -, hsearch, -⟩ := hacc
  obtain ⟨⟨hp, -, hm, -⟩, -⟩ := mem_candidates_iff_visited.1 (mem_candidates_of_search hsearch)
  have hcfg := cfgWord_eq_ofNat (band_lt (pll := s.tie.pll) b.vco) (p := b.p) (m := b.m) (by omega) (by omega)
  have htotal : BitVec.ofNat 32 ((tot s : Int) + a).toNat = BitVec.ofInt 32 ((tot s : Int) + a) := by
    rw [← BitVec.ofInt_natCast, Int.toNat_of_nonneg (by omega)]
  rw [← hcfg, ← htotal]
  rfl

/-- Settles O26: no adjustment answers a configuration. -/
theorem pllsynUnsatisfiable : Obligations.PllsynUnsatisfiable := by
  intro s hready hrej
  rw [exec_pllsyn_ready hready, synthesize_of_rejects hrej, State.endSearch, raiseError_eq]

/-- Settles O30: an error changes STATUS alone, and `write_result` the six registers. -/
theorem pllsynFrame : Obligations.PllsynFrame := by
  intro s t h
  rcases exec_pllsyn_next h with ⟨code, rfl⟩ | ⟨r, -, -, rfl⟩
  · exact ⟨rfl, rfl⟩
  · exact ⟨rfl, rfl⟩

/-- Settles O31: the ending that writes the registers leaves ERR as it was. -/
theorem pllsynErrorKeepsResult : Obligations.PllsynErrorKeepsResult := by
  intro s t hs h ht
  rcases exec_pllsyn_next h with ⟨code, rfl⟩ | ⟨r, -, -, rfl⟩
  · rfl
  · simp [hs] at ht

/-- Settles O32: the candidates are the visited triples in the order of R149, and the search keeps the first of least
error. -/
theorem searchFindsFirstMinimum : Obligations.SearchFindsFirstMinimum := by
  intro pll target hw
  obtain ⟨-, -, -, ⟨-, hsorted, -⟩, -⟩ := hw
  refine ⟨search_eq_none_iff, fun b hb => ?_⟩
  obtain ⟨hv, hvco, herr⟩ := mem_candidates_iff_visited.1 (mem_candidates_of_search hb)
  exact ⟨hv, hvco, herr, fun p m dv h => search_le_or_notAfter hsorted hb h⟩

/-- Settles O33: an ending without an error is the one that writes a result. -/
theorem pllsynResultIsLegal : Obligations.PllsynResultIsLegal := by
  intro s t _ h ht
  rcases exec_pllsyn_next h with ⟨code, rfl⟩ | ⟨r, hw, hs, rfl⟩
  · simp at ht
  · have hlegal := writeResult_legal hw hs
    exact ⟨hlegal.presc_set, hlegal.mult_range.1, hlegal.mult_range.2, hlegal.vco_range.1, hlegal.vco_range.2,
      hlegal.divisor, hlegal.ppm_bound, hlegal.adj_range.1, hlegal.adj_range.2, writeResult_total hs⟩

/-- Settles O34: adjustment 0 leaves the target as it is and is tried first, and its search finds a triple of error 0. -/
theorem exactTargetsHaveNoError : Obligations.ExactTargetsHaveNoError := by
  constructor
  · intro s p m dv hready hv he
    have ⟨_, hw, hclk, htot, _⟩ := hready
    obtain ⟨b, hb, hzero⟩ := exists_search_of_exact hw (Nat.pos_of_ne_zero hclk) hv he
    have hacc : Accepts s 0 b := by
      have hbounds := tot_pos_lt htot
      refine ⟨⟨by omega, by omega⟩, ?_, ?_, by omega⟩
      · rwa [adjClk_zero htot]
      · rwa [adjClk_zero htot]
    refine ⟨_, pllsynWritesFirstAccepted s [] _ 0 b hready rfl (by simp) hacc, rfl, ?_, rfl, ?_⟩
    · simp [hzero]
    · simp [tot]
  · intro pll dv hw hdv hle hlo hhi
    have hpos : 1 ≤ dv := by
      obtain ⟨-, -, -, ⟨-, -, hbounds⟩, -⟩ := hw
      exact (hbounds dv hdv).1
    have hvco : pll.fRef * (2 * dv) / 1 = 2 * dv * pll.fRef := by rw [Nat.div_one, Nat.mul_comm]
    refine ⟨⟨.inl rfl, by omega, by omega, hdv, hvco ▸ hlo, hvco ▸ hhi⟩, ?_⟩
    rw [hvco]
    ring

end Sys2Proof.Claims
end

section
/-! PROOFS. How commands end (60_exceptions.md R182), the codes each can record (R180), and OVR (R188). -/

namespace Sys2Proof.Machine

open Sys2Proof.Claims

/-! ### The endings of a command (60_exceptions.md R182) -/

@[simp] theorem endedOk_err (s : State) : (endedOk s).err = s.status.err := rfl
@[simp] theorem endedWith_err (code : ErrCode) (s : State) : (endedWith code s).err = true := rfl

theorem endedWith_inj {c d : ErrCode} {s : State} (h : endedWith c s = endedWith d s) : c = d :=
  congrArg Status.errCode h

/-- A command completes, changes STATUS alone by an error other than BUS, or ends in BUS. -/
theorem Ending.status_cases {i : Instr} {s t : State} (h : Ending i s t) :
    t.status = endedOk s ∨
      (∃ code, code ≠ .none ∧ code ≠ .bus ∧ t = { s with status := endedWith code s }) ∨
      t.status = endedWith .bus s := by
  cases h with
  | nop | converted | found => exact .inl rfl
  | error code hcode => exact .inr (.inl ⟨code, hcode.1, hcode.2, raiseError_eq s code⟩)
  | bus => exact .inr (.inr rfl)

/-! ### The codes a command records (60_exceptions.md R180) -/

section
variable {f : Word → List Byte} {c : Conversion} {s : State}

/-- A conversion that raises ERR records what its checks found, or BUS. -/
theorem State.convert_errCode {check : Option ErrCode} (hs : s.status.err = false)
    (ht : (s.convert f check c).status.err = true) :
    check = some (s.convert f check c).status.errCode ∨ (s.convert f check c).status.errCode = .bus := by
  rcases s.convert_cases f check c with ⟨code, hcheck, he⟩ | ⟨-, -, he⟩ | ⟨-, -, he⟩
  · exact .inl (by rw [he, hcheck, State.raiseError_status, Status.failed_errCode])
  · rw [he, State.complete_status, Status.completed_err, State.storeStream_status, hs] at ht
    cases ht
  · exact .inr (by rw [he]; rfl)

theorem line_errCode (hs : s.status.err = false) (ht : (s.convert f c.checkLine c).status.err = true) :
    (s.convert f c.checkLine c).status.errCode ∈ [ErrCode.align, .range, .overlap, .bus] := by
  rcases State.convert_errCode hs ht with hcheck | hbus
  · rcases c.checkLine_code hcheck with h | h | h <;> simp [h]
  · simp [hbus]

theorem frame_errCode (hs : s.status.err = false) (ht : (s.convert f c.checkFrame c).status.err = true) :
    (s.convert f c.checkFrame c).status.errCode ∈ [ErrCode.badDim, .align, .range, .overlap, .bus] := by
  rcases State.convert_errCode hs ht with hcheck | hbus
  · rcases c.checkFrame_code hcheck with h | h | h | h <;> simp [h]
  · simp [hbus]

theorem pllsyn_errCode {t : State} (h : exec .pllsyn s = .next t) (hs : s.status.err = false)
    (ht : t.status.err = true) : t.status.errCode ∈ [ErrCode.illegalCmd, .badClock, .clockHigh, .unsat] := by
  rw [exec] at h
  rcases execPllsyn_cases s with ⟨code, hcode, he⟩ | he | ⟨r, -, -, -, he⟩ <;> cases he.symm.trans h
  · exact hcode
  · simp [hs] at ht

end

/-! ### OVR (60_exceptions.md R188) -/

theorem Status.clear_ovr_of_bit_zero {t : Status} {w : Word} (hw : w.getLsbD 3 = false) : (t.clear w).ovr = t.ovr :=
  if_neg (Bool.eq_false_iff.1 hw)

/-- Of the writes to a register only one to STATUS with bit 3 set clears OVR. -/
theorem WriteEnding.ovr_cases {s t : State} {w : Word} {r : Reg} (h : WriteEnding s w r t)
    (hs : s.status.ovr = true) : t.status.ovr = true ∨ r = .status ∧ w.getLsbD 3 = true := by
  cases h with
  | issue | plain => exact .inl hs
  | overrun => exact .inl rfl
  | clear =>
    cases hw : w.getLsbD 3 with
    | true => exact .inr ⟨rfl, rfl⟩
    | false => exact .inl ((Status.clear_ovr_of_bit_zero hw).trans hs)

/-- Of the host's steps only a STATUS write with bit 3 set and reset clear OVR. -/
theorem HostEnding.ovr_cases {s t : State} {op : HostStep} (h : HostEnding s op t) (hs : s.status.ovr = true) :
    t.status.ovr = true ∨ (∃ v, op = .regWrite (windowBase s.tie + 4) 32 v ∧ v.getLsbD 3 = true) ∨ op = .reset := by
  cases h with
  | write r v =>
    rcases (writeReg_ending s r v).ovr_cases hs with h | ⟨rfl, hv⟩
    · exact .inl h
    · exact .inr (.inl ⟨v, rfl, hv⟩)
  | wait =>
    obtain ⟨-, hstatus, -⟩ := hostWaits_keeps s
    exact .inl (by rw [hstatus, hs])
  | memRead a =>
    obtain ⟨-, hstatus, -⟩ := hostReads_keeps s a
    exact .inl (by rw [hstatus, hs])
  | read | memWrite => exact .inl hs
  | reset => exact .inr (.inr rfl)

end Sys2Proof.Machine

namespace Sys2Proof.Claims

open Sys2Proof.Machine

/-- Settles O37: each ending of a command leaves ERR, or sets it and records the code it raised. -/
theorem commandsEndPrecisely : Obligations.CommandsEndPrecisely := by
  intro i s t h
  have hends := (exec_next h).status_cases
  constructor
  · rcases hends with hok | ⟨code, hnone, -, rfl⟩ | hbus
    · exact .inl hok
    · exact .inr ⟨code, hnone, rfl⟩
    · exact .inr ⟨.bus, by simp, hbus⟩
  · intro code hne _ hs ht
    rcases hends with hok | ⟨raised, -, -, rfl⟩ | hbus
    · have herr : s.status.err = true := congrArg Status.err (hok.symm.trans ht)
      simp [hs] at herr
    · rw [endedWith_inj ht]
    · exact absurd (endedWith_inj (hbus.symm.trans ht)).symm hne

/-- Settles O38: the codes are those the checks of the command find, and BUS for a conversion. -/
theorem errorCodesOfCommands : Obligations.ErrorCodesOfCommands := by
  refine ⟨fun i s t hs h ht => ?_, rfl⟩
  cases i with
  | nop =>
    cases h
    simp [hs] at ht
  | line16 | line24 =>
    cases h
    exact .inl ⟨by simp, line_errCode hs ht⟩
  | frame16 | frame24 =>
    cases h
    exact .inr (.inl ⟨by simp, frame_errCode hs ht⟩)
  | pllsyn => exact .inr (.inr ⟨rfl, pllsyn_errCode h hs ht⟩)

/-- Settles O39: an engine step keeps OVR, and of the host's steps only a STATUS write and reset can clear it. -/
theorem overrunIsSticky : Obligations.OverrunIsSticky := by
  refine ⟨fun s w hb => writeReg_cmd_of_busy hb w, fun s t h hs ht => ?_⟩
  rcases step_next h with ⟨-, rfl⟩ | ⟨q, -, hstep⟩ | ⟨op, rest, q, hturn, hend⟩
  · simp [hs] at ht
  · obtain ⟨-, hovr, -⟩ := engineStep_keeps hstep
    simp [hovr, hs] at ht
  · have hhost : s.host = op :: rest := (turn_host hturn).1
    rcases hend.ovr_cases hs with hset | ⟨v, rfl, hv⟩ | rfl
    · simp [hset] at ht
    · exact .inl ⟨v, rest, hhost, hv⟩
    · exact .inr ⟨rest, hhost⟩

end Sys2Proof.Claims
end

section
/-! PROOFS. Reset, the bytes the host must leave alone, what no step changes, and that a command in flight ends
(70_reset_and_hazards.md R200 to R205, R210). -/

namespace Sys2Proof.Machine

/-! ### The tie-offs (70_reset_and_hazards.md R201) -/

theorem HostEnding.tie_eq {s t : State} {op : HostStep} (h : HostEnding s op t) : t.tie = s.tie := by
  cases h with
  | read | memWrite | reset => rfl
  | write r v =>
    obtain ⟨-, htie, -⟩ := writeReg_keeps s r v
    exact htie
  | wait =>
    obtain ⟨-, -, -, -, htie, -⟩ := hostWaits_keeps s
    exact htie
  | memRead a =>
    obtain ⟨-, -, -, -, htie, -⟩ := hostReads_keeps s a
    exact htie

/-! ### Progress of a command in flight (70_reset_and_hazards.md R210) -/

/-- A step taken while BUSY ends the command or is a host step that uses up an entry of the schedule. -/
theorem step_next_of_busy {s t : State} (hb : s.status.busy = true) (h : step s = .next t) :
    t.status.busy = false ∨ s.sched = .host :: t.sched := by
  rcases step_next h with ⟨hturn, -⟩ | ⟨q, -, hstep⟩ | ⟨op, rest, q, hturn, hend⟩
  · obtain ⟨hidle, -⟩ := turn_idle hturn
    simp [hb] at hidle
  · obtain ⟨hidle, -⟩ := engineStep_keeps hstep
    exact .inl hidle
  · obtain ⟨-, ⟨hidle, -⟩ | ⟨-, hsched⟩⟩ := turn_host hturn
    · simp [hb] at hidle
    · exact .inr (by rw [hsched, hostEnding_sched hend])

theorem runsSafely_succ_of_next {k : Nat} {s t : State} (h : step s = .next t) :
    runsSafely (k + 1) s ↔ runsSafely k t := by
  rw [runsSafely, run_next h, runsSafely]

theorem exists_step_next_of_runsSafely_one {s : State} (h : runsSafely 1 s) : ∃ t, step s = .next t := by
  obtain ⟨t, hrun⟩ := h
  cases hstep : step s with
  | next u => exact ⟨u, rfl⟩
  | fault r => cases (run_fault hstep).symm.trans hrun
  | refused r => cases (run_refused hstep).symm.trans hrun

/-- One step on, a command in flight has ended, has stopped the machine, or waits behind a host step that used up an entry of
the schedule. -/
theorem command_ends_or_stops_or_waits {s : State} (hb : s.status.busy = true) :
    ((∃ t, Host.Core.run Sys2Proof.core 1 s = .next t ∧ t.status.busy = false) ∨ ¬ runsSafely 1 s) ∨
      ∃ t, step s = .next t ∧ t.status.busy = true ∧ s.sched = .host :: t.sched := by
  by_cases hsafe : runsSafely 1 s
  · obtain ⟨t, hstep⟩ := exists_step_next_of_runsSafely_one hsafe
    cases hbt : t.status.busy with
    | false => exact .inl (.inl ⟨t, run_next hstep, hbt⟩)
    | true =>
      rcases step_next_of_busy hb hstep with hidle | hsched
      · simp [hbt] at hidle
      · exact .inr ⟨t, hstep, hbt, hsched⟩
  · exact .inl (.inr hsafe)

/-! ### Reset (70_reset_and_hazards.md R200 to R202) -/

theorem resetNow_readReg (s : State) (r : Reg) : s.resetNow.readReg r = (State.resetOf s.tie).readReg r := by
  cases r <;> rfl

theorem abortedBytes_of_no_conversion {s : State} (h : s.inFlight = none) : s.abortedBytes = [] := by
  rw [State.abortedBytes, h]

theorem mem_abortedBytes {s : State} {c : Conversion} (h : s.inFlight = some c) {a : Nat} :
    a ∈ s.abortedBytes ↔ a ∈ c.writtenSet ∧ a < 2 ^ 32 := by
  rw [State.abortedBytes, h, List.mem_filter, decide_eq_true_eq, Config.memBytes]

/-- The number of the draw an aborting reset leaves at an address: the bytes are drawn in the order they are listed. -/
def State.resetDraw (s : State) (a : Nat) : Nat := s.draws + s.abortedBytes.idxOf a

theorem resetDraw_mem_draws {s : State} {a : Nat} (h : a ∈ s.abortedBytes) :
    s.draws ≤ s.resetDraw a ∧ s.resetDraw a < s.resetNow.draws :=
  ⟨Nat.le_add_right _ _, Nat.add_lt_add_left (List.idxOf_lt_length_of_mem h) _⟩

theorem resetDraw_inj {s : State} {a b : Nat} (ha : a ∈ s.abortedBytes) (h : s.resetDraw a = s.resetDraw b) : a = b :=
  (List.idxOf_inj ha).1 (Nat.add_left_cancel h)

theorem resetNow_read_aborted {s : State} (hm : s.mem.Wf) {a : Nat} (h : a ∈ s.abortedBytes) :
    s.resetNow.mem.read a = Config.freeByte (s.resetDraw a) := by
  have hidx := List.idxOf_lt_length_of_mem h
  have hread := Memory.read_writeFree (n := s.draws) hm (fun _ => abortedBytes_lt) (abortedBytes_nodup s) hidx
  rwa [List.getElem_idxOf hidx] at hread

theorem resetNow_read_other {s : State} {a : Nat} (h : a ∉ s.abortedBytes) : s.resetNow.mem.read a = s.mem.read a :=
  Memory.read_writeFree_other h

/-! ### Host memory accesses while a conversion is in flight (70_reset_and_hazards.md R205) -/

theorem State.owned_iff {s : State} {c : Conversion} (h : s.inFlight = some c) {a : Nat} :
    s.owned a = true ↔ (c.dst ≤ a ∧ a < c.dst + c.windowLen) ∨ (c.src ≤ a ∧ a < c.src + c.srcSpan) := by
  rw [State.owned, h, Bool.or_eq_true, c.inWindow_iff, c.inSourceSpan_iff]

theorem State.inBusyWindow_iff {s : State} {c : Conversion} (h : s.inFlight = some c) {a : Nat} :
    s.inBusyWindow a = true ↔ c.dst ≤ a ∧ a < c.dst + c.windowLen := by
  rw [State.inBusyWindow, h, c.inWindow_iff]

theorem hostStep_memWrite_of_owned {s : State} {a : Nat} (h : a < 2 ^ 32) (ho : s.owned a = true) (v : Byte) :
    State.hostStep (.memWrite a v) s = .refused .ownedBuffer := by
  have hlt : ¬ Config.memBytes ≤ a := Nat.not_le.2 h
  simp [State.hostStep, hlt, ho]

theorem hostStep_memRead_of_inBusyWindow {s : State} {a : Nat} (h : a < 2 ^ 32) (hw : s.inBusyWindow a = true) :
    State.hostStep (.memRead a) s =
      .next { s with seen := .byte a (Config.freeByte s.draws) :: s.seen, draws := s.draws + 1 } := by
  have hlt : ¬ Config.memBytes ≤ a := Nat.not_le.2 h
  simp [State.hostStep, State.hostReads, State.observe, hlt, hw]

end Sys2Proof.Machine

namespace Sys2Proof.Claims

open Sys2Proof.Machine

/-- Settles O57: neither an engine step nor any host step writes the tie-offs. -/
theorem tieOffsNeverChange : Obligations.TieOffsNeverChange := by
  intro s t h
  rcases step_next h with ⟨-, rfl⟩ | ⟨q, -, hstep⟩ | ⟨op, rest, q, -, hend⟩
  · rfl
  · obtain ⟨-, -, -, htie, -⟩ := engineStep_keeps hstep
    exact htie
  · exact hend.tie_eq

/-- Settles O9, by induction on the schedule: a step that neither ends the command nor stops the machine uses up an entry,
and an exhausted schedule has none to use. -/
theorem commandEndsWithinSchedule : Obligations.CommandEndsWithinSchedule := by
  intro s hb
  induction hq : s.sched generalizing s with
  | nil =>
    rcases command_ends_or_stops_or_waits hb with hend | ⟨t, -, -, hsched⟩
    · exact ⟨1, le_rfl, hend⟩
    · simp [hq] at hsched
  | cons agent q ih =>
    rcases command_ends_or_stops_or_waits hb with hend | ⟨t, hstep, hbt, hsched⟩
    · exact ⟨1, by simp, hend⟩
    · have hrest : t.sched = q := (List.cons.inj (hq.symm.trans hsched)).2.symm
      obtain ⟨k, hk, hend⟩ := ih t hbt hrest
      refine ⟨k + 1, Nat.succ_le_succ hk, ?_⟩
      rwa [run_next hstep, runsSafely_succ_of_next hstep]

/-- Settles O52: the bytes reset frees are listed once each, so the place of a byte in the list numbers its draw. -/
theorem resetAbortsTheCommand : Obligations.ResetAbortsTheCommand := by
  intro s hm
  refine ⟨s.resetNow, rfl, fun r => ?_, rfl, rfl, rfl, rfl, fun hnone => ?_, fun c hc => ?_⟩
  · obtain ⟨hzero, -⟩ := resetZeroesRegisters s.tie
    rw [resetNow_readReg, hzero]
  · rw [State.resetNow_mem, abortedBytes_of_no_conversion hnone, Memory.writeFree]
  · have hmem : ∀ a, Written c.dst (c.bpp * c.width * c.height) a → a < 2 ^ 32 → a ∈ s.abortedBytes :=
      fun a hw ha => (mem_abortedBytes hc).2 ⟨mem_writtenSet_iff.2 hw, ha⟩
    refine ⟨fun a hw => resetNow_read_other fun ha => ?_, s.resetDraw, fun a hw ha => ?_,
      fun a b hwa _ ha _ heq => resetDraw_inj (hmem a hwa ha) heq⟩
    · exact hw (mem_writtenSet_iff.1 ((mem_abortedBytes hc).1 ha).1)
    · obtain ⟨hlo, hhi⟩ := resetDraw_mem_draws (hmem a hw ha)
      exact ⟨hlo, hhi, resetNow_read_aborted hm (hmem a hw ha)⟩

/-- Settles O54: the host's accesses depend on whether the byte is owned and whether it is in the busy window, and both are
read off the operands. -/
theorem hostLeavesOwnedBuffers : Obligations.HostLeavesOwnedBuffers := by
  intro s i c a v hb hi hc ha
  have hflight : s.inFlight = some c := (inFlight_of_decode_ok hb hi).trans hc
  have howned := State.owned_iff hflight (a := a)
  have hwindow := State.inBusyWindow_iff hflight (a := a)
  refine ⟨fun hsrc => c.mem_span_of_mem_srcBytes (c.mem_srcBytes.2 hsrc), fun h => ?_, fun h => ?_, fun h => ?_,
    fun h => ?_⟩
  · exact hostStep_memWrite_of_owned ha (howned.2 h) v
  · exact hostStep_memWrite_of_free ha (Bool.eq_false_iff.2 (mt howned.1 h)) v
  · exact hostStep_memRead_of_inBusyWindow ha (hwindow.2 h)
  · exact hostStep_memRead_of_not_inBusyWindow ha (Bool.eq_false_iff.2 (mt hwindow.1 h))

end Sys2Proof.Claims
end
